-- ==== Sys2Proof/Word.lean ====
section
/-! DEFINITION. The words of the EC450-FPA: bytes, and the six-slot register groups. -/

namespace Sys2Proof

/-- A byte: 8 bits, an unsigned integer 0 to 255 (00_scope.md, section 5.1). -/
abbrev Byte := BitVec 8

/-- A slot index 0 to 5 (00_scope.md R2: `NCH = 6`). Slot 0 is the aggregate. -/
abbrev Slot := Fin 6

/-- A sub-channel index 0 to 4 (00_scope.md R2: `NSUB = 5`). -/
abbrev SubChannel := Fin 5

/-- Sub-channel `c` is slot `c + 1` (00_scope.md R2). -/
abbrev SubChannel.slot (c : SubChannel) : Slot := c.succ

/-- Six like words of `w` bits, one per slot: a register group (10_state.md R12, R13, R15) or the lanes of a
six-slot record (41_message_decode.md R98, R100). -/
structure Slots (w : Nat) where
  s0 : BitVec w
  s1 : BitVec w
  s2 : BitVec w
  s3 : BitVec w
  s4 : BitVec w
  s5 : BitVec w
deriving DecidableEq, Repr

/-- The word of slot `k`. -/
def Slots.get {w : Nat} (x : Slots w) (k : Slot) : BitVec w :=
  match k with
  | 0 => x.s0
  | 1 => x.s1
  | 2 => x.s2
  | 3 => x.s3
  | 4 => x.s4
  | 5 => x.s5

/-- The six words given slot by slot. -/
def Slots.ofFn {w : Nat} (f : Slot → BitVec w) : Slots w :=
  ⟨f 0, f 1, f 2, f 3, f 4, f 5⟩

/-- Six zero words. -/
def Slots.zero (w : Nat) : Slots w :=
  Slots.ofFn fun _ => 0#w

/-- The sub-channels in ascending order (42_apply_publish.md R113). -/
def subChannels : List SubChannel := [0, 1, 2, 3, 4]

end Sys2Proof
end

