-- ==== Sys2Proof/Config.lean ====
section
/-! DEFINITION. What is fixed for the block: the protocol constants (00_scope.md R1 to R6), the one free value, and
the open parameter `ToFloat`. None of these is a register and no operation changes one (10_state.md R20). -/

namespace Sys2Proof.Config

/-- The filler byte `BUSY_BYTE` (00_scope.md R1). -/
def busyByte : Byte := 0xB5#8

/-- The end-of-frame sentinel `EOF` (00_scope.md R1). -/
def eof : Byte := 0xC0#8

/-- A declared length greater than or equal to `MAX_MSG_LENGTH` is invalid (00_scope.md R1). -/
def maxMsgLength : Nat := 0x30

/-- `T_VOLTAGE` (00_scope.md R3). -/
def tVoltage : Byte := 0x0D#8

/-- `T_CURRENT` (00_scope.md R3). -/
def tCurrent : Byte := 0x0E#8

/-- `T_POWER` (00_scope.md R3). -/
def tPower : Byte := 0x0F#8

/-- `T_ENERGY` (00_scope.md R3). -/
def tEnergy : Byte := 0x10#8

/-- `FB_SIZE`, the number of cells of the frame buffer (00_scope.md R6, 10_state.md R21). -/
def fbSize : Nat := 49

/-- `STALE_MS`, the staleness window in milliseconds: a constant that nothing reads (00_scope.md R5,
60_exceptions.md R137). -/
def staleMs : Nat := 50

/-- The byte that draw number `n` finds in the unspecified frame-buffer cell at an offset: a FREE VALUE. The spec says
that such a read returns any byte, independently for each cell and each occurrence (41_message_decode.md R97,
93_implementation_defined.md U1). It has no body, so nothing can be proved of it. DESIGN CHOICE (the form of the free
value), safe: notes/assumptions/3.md and 4.md. -/
opaque freeByte : (draw : Nat) → (offset : Nat) → Byte

/-- The open parameter `ToFloat`: a total function of the exact published value alone, into whatever representation the
sink takes (42_apply_publish.md R115). The block never applies one; a claim takes it as an argument. -/
abbrev ToFloat (α : Type) := ℚ → α

end Sys2Proof.Config
end

