-- ==== Sys2Proof/Syntax.lean ====
section
/-! DEFINITION. The operations that the byte stream encodes: every mnemonic of spec/opcode_table.json (30_encoding.md
R51, R57). A mnemonic that several rows of the table share, because one match/mask pair cannot express its range
(R68), is one constructor that carries the selecting byte (notes/assumptions/12.md). -/

namespace Sys2Proof

/-- The two encoding formats (30_encoding.md, introduction): `len` is selected by the byte at the head of the stream,
`msg` by the type byte of an accepted frame. -/
inductive Format where
  | len
  | msg
deriving DecidableEq, Repr

/-- The operations of the opcode table. -/
inductive Instr where
  /-- DROP_ZERO: head byte `0x00` (40_stream_ops.md R73). -/
  | dropZero
  /-- DROP_FILLER: head byte `0xB5` (R74). -/
  | dropFiller
  /-- DROP_OVERLEN: head byte `0x30` to `0xFF` but `0xB5` (R75). The operand is that byte. -/
  | dropOverlen (byte : Byte)
  /-- FRAME: head byte `0x01` to `0x2F` (R76). The operand is the declared length `L`. -/
  | frame (length : Byte)
  /-- MSG_VOLTAGE: type byte `0x0D` (41_message_decode.md R91). -/
  | msgVoltage
  /-- MSG_CURRENT: type byte `0x0E` (R92). -/
  | msgCurrent
  /-- MSG_POWER: type byte `0x0F` (R93). -/
  | msgPower
  /-- MSG_ENERGY: type byte `0x10` (R94). -/
  | msgEnergy
  /-- MSG_UNKNOWN: any other type byte (R95). The operand is the type byte. -/
  | msgUnknown (type : Byte)
deriving DecidableEq, Repr

/-- The format that encodes an operation. -/
def Instr.format : Instr → Format
  | .dropZero => .len
  | .dropFiller => .len
  | .dropOverlen _ => .len
  | .frame _ => .len
  | .msgVoltage => .msg
  | .msgCurrent => .msg
  | .msgPower => .msg
  | .msgEnergy => .msg
  | .msgUnknown _ => .msg

/-- The operation's mnemonic in spec/opcode_table.json. -/
def Instr.mnemonic : Instr → String
  | .dropZero => "DROP_ZERO"
  | .dropFiller => "DROP_FILLER"
  | .dropOverlen _ => "DROP_OVERLEN"
  | .frame _ => "FRAME"
  | .msgVoltage => "MSG_VOLTAGE"
  | .msgCurrent => "MSG_CURRENT"
  | .msgPower => "MSG_POWER"
  | .msgEnergy => "MSG_ENERGY"
  | .msgUnknown _ => "MSG_UNKNOWN"

end Sys2Proof
end

