-- ==== Sys2Proof/WellFormed.lean ====
section
/-! DEFINITION. Which terms of Instr an encoding stands for: an operand lies in the range that selects its mnemonic
(30_encoding.md R51, R57). -/

namespace Sys2Proof

/-- A byte that DROP_OVERLEN stands for: at least `MAX_MSG_LENGTH` and not the filler byte (40_stream_ops.md R75). -/
def overlenByte (b : Byte) : Bool :=
  Config.maxMsgLength ≤ b.toNat && b != Config.busyByte

/-- A legal declared length: in the open interval `(0, MAX_MSG_LENGTH)` (30_encoding.md R51). -/
def legalLength (b : Byte) : Bool :=
  0 < b.toNat && b.toNat < Config.maxMsgLength

/-- A type byte that is one of the four recognised codes (00_scope.md R3). -/
def recognisedType (t : Byte) : Bool :=
  t == Config.tVoltage || t == Config.tCurrent || t == Config.tPower || t == Config.tEnergy

/-- The term is one that some byte decodes to. -/
def Instr.wf : Instr → Bool
  | .dropZero => true
  | .dropFiller => true
  | .dropOverlen b => overlenByte b
  | .frame len => legalLength len
  | .msgVoltage => true
  | .msgCurrent => true
  | .msgPower => true
  | .msgEnergy => true
  | .msgUnknown t => !recognisedType t

end Sys2Proof
end

