-- ==== Sys2Proof/Decode.lean ====
section
/-! DEFINITION. The decoder of the two formats, the encoder beside it, the opcode table as rows, and the frame encoder
of 30_encoding.md R66 and R67. -/

namespace Sys2Proof

/-- Why bytes do not decode. Every byte of either format selects an operation (30_encoding.md R51, R57, R63), so the
one reason is that there is none. -/
inductive DecodeError where
  /-- There is no byte to decode: the block never peeks at an empty ByteSource (20_memory.md R31). -/
  | noByte
deriving DecidableEq, Repr

/-- Format LEN: the operation that the head byte selects, by value alone (40_stream_ops.md R72). -/
def decodeLen (b : Byte) : Instr :=
  if b = 0x00#8 then .dropZero
  else if b = Config.busyByte then .dropFiller
  else if Config.maxMsgLength ≤ b.toNat then .dropOverlen b
  else .frame b

/-- Format MSG: the operation that the type byte selects, by value alone (41_message_decode.md R90). -/
def decodeMsg (t : Byte) : Instr :=
  if t = Config.tVoltage then .msgVoltage
  else if t = Config.tCurrent then .msgCurrent
  else if t = Config.tPower then .msgPower
  else if t = Config.tEnergy then .msgEnergy
  else .msgUnknown t

/-- The operation selected by one byte of a format. -/
def decodeByte (f : Format) (b : Byte) : Instr :=
  match f with
  | .len => decodeLen b
  | .msg => decodeMsg b

/-- The decoder: the operation that the first byte selects, and the bytes after it. -/
def decode (f : Format) (bytes : List Byte) : Except DecodeError (Instr × List Byte) :=
  match bytes with
  | [] => .error .noByte
  | b :: rest => .ok (decodeByte f b, rest)

/-- The byte that selects an operation, from the encoding column of the opcode table. -/
def selector : Instr → Byte
  | .dropZero => 0x00#8
  | .dropFiller => 0xB5#8
  | .dropOverlen b => b
  | .frame len => len
  | .msgVoltage => 0x0D#8
  | .msgCurrent => 0x0E#8
  | .msgPower => 0x0F#8
  | .msgEnergy => 0x10#8
  | .msgUnknown t => t

/-- The encoder: the words of an operation, which are its one selecting byte in its format (30_encoding.md R56; the
bytes of a frame after the head are data that FRAME reads when it runs). -/
def encode (i : Instr) : List Byte :=
  [selector i]

/-! ### The opcode table (30_encoding.md R68) -/

/-- One row of spec/opcode_table.json: a byte `b` matches when `b AND mask = pattern`. -/
structure Row where
  format : Format
  mnemonic : String
  pattern : Byte
  mask : Byte
deriving DecidableEq, Repr

/-- The byte matches the row. -/
def Row.matches (r : Row) (b : Byte) : Bool :=
  b &&& r.mask == r.pattern

/-- The 17 rows of format LEN. -/
def lenRows : List Row :=
  [⟨.len, "DROP_ZERO", 0x00, 0xFF⟩,
   ⟨.len, "FRAME", 0x01, 0xFF⟩, ⟨.len, "FRAME", 0x02, 0xFE⟩, ⟨.len, "FRAME", 0x04, 0xFC⟩,
   ⟨.len, "FRAME", 0x08, 0xF8⟩, ⟨.len, "FRAME", 0x10, 0xF0⟩, ⟨.len, "FRAME", 0x20, 0xF0⟩] ++
  [⟨.len, "DROP_OVERLEN", 0x30, 0xF0⟩, ⟨.len, "DROP_OVERLEN", 0x40, 0xC0⟩, ⟨.len, "DROP_OVERLEN", 0x80, 0xE0⟩,
   ⟨.len, "DROP_OVERLEN", 0xA0, 0xF0⟩, ⟨.len, "DROP_OVERLEN", 0xB0, 0xFC⟩, ⟨.len, "DROP_OVERLEN", 0xB4, 0xFF⟩,
   ⟨.len, "DROP_OVERLEN", 0xB6, 0xFE⟩, ⟨.len, "DROP_OVERLEN", 0xB8, 0xF8⟩, ⟨.len, "DROP_OVERLEN", 0xC0, 0xC0⟩,
   ⟨.len, "DROP_FILLER", 0xB5, 0xFF⟩]

/-- The 14 rows of format MSG. -/
def msgRows : List Row :=
  [⟨.msg, "MSG_VOLTAGE", 0x0D, 0xFF⟩, ⟨.msg, "MSG_CURRENT", 0x0E, 0xFF⟩, ⟨.msg, "MSG_POWER", 0x0F, 0xFF⟩,
   ⟨.msg, "MSG_ENERGY", 0x10, 0xFF⟩] ++
  [⟨.msg, "MSG_UNKNOWN", 0x00, 0xF8⟩, ⟨.msg, "MSG_UNKNOWN", 0x08, 0xFC⟩, ⟨.msg, "MSG_UNKNOWN", 0x0C, 0xFF⟩,
   ⟨.msg, "MSG_UNKNOWN", 0x11, 0xFF⟩, ⟨.msg, "MSG_UNKNOWN", 0x12, 0xFE⟩, ⟨.msg, "MSG_UNKNOWN", 0x14, 0xFC⟩,
   ⟨.msg, "MSG_UNKNOWN", 0x18, 0xF8⟩, ⟨.msg, "MSG_UNKNOWN", 0x20, 0xE0⟩, ⟨.msg, "MSG_UNKNOWN", 0x40, 0xC0⟩,
   ⟨.msg, "MSG_UNKNOWN", 0x80, 0x80⟩]

/-- The rows of a format. -/
def rows : Format → List Row
  | .len => lenRows
  | .msg => msgRows

/-! ### Frames (30_encoding.md R50, R53, R66, R67) -/

/-- `Sum8(bytes)`: the sum of the bytes modulo 256, 0 for none (00_scope.md section 5.4, 40_stream_ops.md R85). -/
def sum8 : List Byte → Byte
  | [] => 0#8
  | b :: rest => b + sum8 rest

/-- `be16(v)`: the two bytes of `v`, most significant first (30_encoding.md R66). -/
def be16 (v : BitVec 16) : List Byte :=
  [v.extractLsb' 8 8, v.extractLsb' 0 8]

/-- `be32(v)`: the four bytes of `v`, most significant first (30_encoding.md R66). -/
def be32 (v : BitVec 32) : List Byte :=
  [v.extractLsb' 24 8, v.extractLsb' 16 8, v.extractLsb' 8 8, v.extractLsb' 0 8]

/-- The frame encoder `Frame(T, F)` (30_encoding.md R67), for at most 45 field bytes. -/
def frameBytes (t : Byte) (fields : List Byte) : List Byte :=
  [BitVec.ofNat 8 (fields.length + 2)] ++ [t] ++ fields ++ [sum8 (t :: fields)] ++ [Config.eof]

/-- The item `FILL` of the notation (30_encoding.md R65). -/
def fillBytes : List Byte := [Config.busyByte]

/-- The item `VOLT(raw)` (30_encoding.md R66). -/
def voltBytes (raw : BitVec 16) : List Byte :=
  frameBytes Config.tVoltage (be16 raw)

/-- The six fields of a 16-bit message, slot 0 first. -/
def slotBytes16 (c : Slots 16) : List Byte :=
  be16 c.s0 ++ be16 c.s1 ++ be16 c.s2 ++ be16 c.s3 ++ be16 c.s4 ++ be16 c.s5

/-- The six fields of a 32-bit message, slot 0 first. -/
def slotBytes32 (c : Slots 32) : List Byte :=
  be32 c.s0 ++ be32 c.s1 ++ be32 c.s2 ++ be32 c.s3 ++ be32 c.s4 ++ be32 c.s5

/-- The item `CURR(r0, ..., r5)` (30_encoding.md R66). -/
def currBytes (c : Slots 16) : List Byte :=
  frameBytes Config.tCurrent (slotBytes16 c)

/-- The item `POWR(r0, ..., r5)` (30_encoding.md R66). -/
def powrBytes (c : Slots 32) : List Byte :=
  frameBytes Config.tPower (slotBytes32 c)

/-- The item `ENRG(d0, ..., d5)` (30_encoding.md R66). -/
def enrgBytes (c : Slots 32) : List Byte :=
  frameBytes Config.tEnergy (slotBytes32 c)

/-! ### Words numbered as the opcode table numbers them -/

/-- The first `n` bytes of the word `w`, bit 0 of `w` the least significant bit of the first byte. -/
def wordBytes : (n : Nat) → (w : Nat) → List Byte
  | 0, _ => []
  | n + 1, w => BitVec.ofNat 8 w :: wordBytes n (w / 256)

/-- How many bytes the longest operation takes: a FRAME of declared length 47 (30_encoding.md R56). -/
def longestOperation : Nat := Config.fbSize

/-- The bytes of an instruction whose table word is `w` of `nbits` bits, with zero bytes after it up to the longest
operation, as they stand in the stream. -/
def wordStream (nbits w : Nat) : List Byte :=
  let given := (wordBytes (nbits / 8) w).take longestOperation
  given ++ List.replicate (longestOperation - given.length) 0#8

/-- The instruction that the decoder reads from a table word. The bytes stand at the head of the stream, where format
LEN decodes (30_encoding.md R56); a type byte is never at the head of an operation, so a row of format MSG, whose
8-bit word is the type byte alone, is read here by its LEN meaning (notes/assumptions/10.md). -/
def decodeTableWord (nbits w : Nat) : Option Instr :=
  if nbits < 8 then none
  else
    match decode .len (wordStream nbits w) with
    | .ok (i, _) => some i
    | .error _ => none

end Sys2Proof
end

