-- ==== Sys2Proof/Machine/State.lean ====
section
/-! DEFINITION. The state of the EC450-FPA as plain data (10_state.md), the events of its two output traces, the moves
of its environment, and how a step can stop. -/

namespace Sys2Proof.Machine

/-- The control state `run` (10_state.md R18). -/
inductive Run where
  /-- No invocation in progress: the PARSER has no enabled step. -/
  | halted
  /-- An invocation is in progress and the PARSER is at the availability check S1. -/
  | running
deriving DecidableEq, Repr

/-! ### The SINK trace (42_apply_publish.md R105) -/

/-- The 16 publication points, one per bit of `BIND`. -/
inductive SinkId where
  | volt
  | cur (c : SubChannel)
  | pow (c : SubChannel)
  | ene (c : SubChannel)
deriving DecidableEq, Repr

/-- A Publish event: the exact value `num / den` handed to a sink. -/
structure Publish where
  sink : SinkId
  num : Nat
  den : Nat
deriving DecidableEq, Repr

/-! ### Records and the DIAG trace (41_message_decode.md R98, 60_exceptions.md R120, R121) -/

/-- A decoded record, with raw field values (41_message_decode.md R98). -/
inductive Record where
  | voltage (v : BitVec 16)
  | current (c : Slots 16)
  | power (p : Slots 32)
  | energyDelta (d : Slots 32)
deriving DecidableEq, Repr

/-- The causes of 60_exceptions.md R120. -/
inductive Cause where
  | summary
  | noiseByte
  | badEof
  | badChecksum
  | unknownType
  | starvation
deriving DecidableEq, Repr

/-- The severities of 60_exceptions.md R121. -/
inductive Severity where
  | debug
  | info
  | warning
deriving DecidableEq, Repr

/-- What a DIAG event carries: bytes, or for SUMMARY a record (60_exceptions.md R121). -/
inductive DiagData where
  | bytes (b : List Byte)
  | record (r : Record)
deriving DecidableEq, Repr

/-- A DIAG event (60_exceptions.md R121). -/
structure Diag where
  cause : Cause
  severity : Severity
  data : DiagData
deriving DecidableEq, Repr

/-! ### The environment (10_state.md R10, 70_reset_and_hazards.md R150) -/

/-- One turn of an agent. The schedule is open in the spec; State holds the turns still to come
(notes/assumptions/6.md), finitely many of them; an endless schedule is a function that stands beside State
(Machine/Schedule.lean, notes/assumptions/20.md). -/
inductive Move where
  /-- PARSER: one operation, if an invocation is in progress. -/
  | parser
  /-- PRODUCER: append one byte at the tail of `rx` (20_memory.md R47). -/
  | append (b : Byte)
  /-- HOST: start an invocation (40_stream_ops.md R70). -/
  | tick
  /-- HOST: write `BIND` (10_state.md R19). -/
  | writeBind (value : BitVec 16)
  /-- HOST: reset the block (70_reset_and_hazards.md R145). -/
  | reset
deriving DecidableEq, Repr

/-! ### The frame buffer (10_state.md R21) -/

/-- The frame buffer as the list of its specified cells: (frame offset, byte), offsets strictly rising. A cell that is
not listed is UNSPECIFIED: it holds no byte that the model may name (notes/assumptions/3.md). -/
abbrev Memory := List Host.Cell

/-- The canonical form: offsets strictly rising and inside the buffer. No entry can equal what an unlisted cell reads
as, since that is no specified byte. -/
def Memory.wf (m : Memory) : Bool :=
  (m.map Prod.fst).Pairwise (· < ·) && m.all fun c => c.1 < Config.fbSize

/-! ### How a step can stop -/

/-- A fault of the machine. The spec has none (60_exceptions.md R128). -/
inductive Fault where
  /-- Raised by FRAME's load when it would write beyond the 49 cells of the frame buffer, to cells that do not exist.
  Only an ill-formed operand (a declared length of 48 or more) asks for it and the decoder gives none, so this is safe
  (notes/assumptions/15.md). -/
  | frameBufferOverrun
deriving DecidableEq, Repr

/-- Why a step has no next state. -/
inductive Refusal where
  /-- Raised by an arm of `exec` whose instruction has no meaning yet. Safe. No arm raises it now. -/
  | notModelled (mnemonic : String)
  /-- Raised by the drop operations when `RxRead(1)` finds no byte: the caller's guarantee `n <= availableCount()` is
  broken (20_memory.md R32, 93_implementation_defined.md U4). No decoded operation does this. Safe. -/
  | readPastAvailable
  /-- Raised by a HOST tick while RUNNING, which is no move (40_stream_ops.md R70, 93_implementation_defined.md U11).
  Safe. -/
  | tickWhileRunning
  /-- Raised by a HOST write of `BIND` while RUNNING, which is no move (70_reset_and_hazards.md R158,
  93_implementation_defined.md U8). Safe. -/
  | bindWhileRunning
  /-- Raised by a HOST reset while RUNNING, which is no move (70_reset_and_hazards.md R146,
  93_implementation_defined.md U9). Safe. -/
  | resetWhileRunning
deriving DecidableEq, Repr

/-! ### The state -/

/-- The state of the block, its two traces, the ByteSource's buffer, and the model's own two fields. -/
structure State where
  /-- `V` (10_state.md R11). -/
  v : BitVec 16
  /-- `I[0..5]` (R12). -/
  i : Slots 16
  /-- `P[0..5]` (R13). -/
  p : Slots 32
  /-- `E[0..5]` (R15). -/
  e : Slots 64
  /-- `BIND` (R19). -/
  bind : BitVec 16
  /-- `run` (R18). -/
  run : Run
  /-- `pos`, the stream cursor (R17). -/
  pos : Nat
  /-- `FB` (R21). -/
  fb : Memory
  /-- `L`, the length latch (R22). -/
  len : Byte
  /-- `rx`, the bytes buffered by the ByteSource, head first (R23). -/
  rx : List Byte
  /-- The SINK trace, oldest event first (R25). -/
  sink : List Publish
  /-- The DIAG trace, oldest event first (R25). -/
  diag : List Diag
  /-- The MODEL's own: how many draws of unspecified bytes have been made (notes/assumptions/4.md). -/
  draws : Nat
  /-- The MODEL's own: the turns of the agents still to come (notes/assumptions/6.md). That they are finitely many, with
  PARSER turns after them, is a DESIGN CHOICE; endless schedules are those of Machine/Schedule.lean
  (notes/assumptions/20.md). -/
  sched : List Move
deriving DecidableEq, Repr

/-- The state right after reset (10_state.md R29). `E`, `BIND`, `run`, `pos`, `rx` and both traces have the values of
that table; every cell of `FB` is unspecified, which is the empty list. `V`, `I`, `P` and `L` are unspecified in the
table: 0 is a DESIGN CHOICE, unsafe (notes/assumptions/1.md and 2.md). `draws` and `sched` are the model's own
(notes/assumptions/4.md and 7.md). -/
def State.reset : State where
  v := 0#16
  i := Slots.zero 16
  p := Slots.zero 32
  e := Slots.zero 64
  bind := 0#16
  run := .halted
  pos := 0
  fb := []
  len := 0#8
  rx := []
  sink := []
  diag := []
  draws := 0
  sched := []

end Sys2Proof.Machine
end

