-- ==== Sys2Proof/Machine/Ops.lean ====
section
/-! DEFINITION. The named operations over the ByteSource, the frame buffer, the control state and the two traces, and
the one shared operation that raises a cause. -/

namespace Sys2Proof.Machine

/-! ### Codes (60_exceptions.md R120, R142; 42_apply_publish.md R105) -/

/-- The code of a cause (60_exceptions.md R120). -/
def Cause.code : Cause → Nat
  | .summary => 0
  | .noiseByte => 1
  | .badEof => 2
  | .badChecksum => 3
  | .unknownType => 4
  | .starvation => 5

/-- The number of a severity (60_exceptions.md R142). -/
def Severity.code : Severity → Nat
  | .debug => 0
  | .info => 1
  | .warning => 2

/-- The bit of `BIND` that binds a sink (10_state.md R19, 42_apply_publish.md R105). -/
def SinkId.bit : SinkId → Nat
  | .volt => 0
  | .cur c => 1 + c.val
  | .pow c => 6 + c.val
  | .ene c => 11 + c.val

/-- The denominator that a sink's events carry (42_apply_publish.md R105). -/
def SinkId.den : SinkId → Nat
  | .volt => 100
  | .cur _ => 100
  | .pow _ => 1
  | .ene _ => 10000

/-- The exact value that a Publish event carries (42_apply_publish.md R105, R106). -/
def Publish.value (ev : Publish) : ℚ :=
  (ev.num : ℚ) / (ev.den : ℚ)

/-- The sink's floating image of a Publish event, for a given `ToFloat` (42_apply_publish.md R115). No operation of the
block uses it. -/
def Publish.image {α : Type} (toFloat : Config.ToFloat α) (ev : Publish) : α :=
  toFloat ev.value

/-! ### The ByteSource (20_memory.md R30 to R32) -/

/-- `RxAvail()` (20_memory.md R30). -/
def rxAvail (s : State) : Nat :=
  s.rx.length

/-- `RxPeek()`, none where its precondition fails (20_memory.md R31). -/
def rxPeek (s : State) : Option Byte :=
  s.rx.head?

/-- The state after `RxRead(n)`: the first `n` bytes are gone and `pos` has moved past them (20_memory.md R32). -/
def consume (n : Nat) (s : State) : State :=
  { s with rx := s.rx.drop n, pos := s.pos + n }

/-- `RxRead(n)` for `n ≤ RxAvail()`: the bytes in stream order, and the state after (20_memory.md R32). -/
def rxRead (n : Nat) (s : State) : List Byte × State :=
  (s.rx.take n, consume n s)

/-! ### The frame buffer (10_state.md R21, 20_memory.md R33) -/

/-- The specified byte of a cell, none where the cell is unspecified. -/
def Memory.get (m : Memory) (offset : Nat) : Option Byte :=
  match m with
  | [] => none
  | c :: rest => if c.1 = offset then some c.2 else Memory.get rest offset

/-- The buffer whose specified cells are exactly those holding the given bytes, from a first offset on. -/
def Memory.ofBytes (first : Nat) (bytes : List Byte) : Memory :=
  match bytes with
  | [] => []
  | b :: rest => (first, b) :: Memory.ofBytes (first + 1) rest

/-- The loaded frame `FB[0..L+1]`: the bytes of the specified cells, in offset order (20_memory.md R40). -/
def Memory.frame (m : Memory) : List Byte :=
  m.map Prod.snd

/-- The load of FRAME: `FB[0..n-1]` take the bytes read, in stream order, and every other cell becomes unspecified
(40_stream_ops.md R78, 20_memory.md R33). -/
def loadFrame (bytes : List Byte) (s : State) : State :=
  { s with fb := Memory.ofBytes 0 bytes }

/-- The buffer is discarded: every cell is unspecified (10_state.md R21, 40_stream_ops.md R79 to R81;
notes/assumptions/5.md). -/
def discardFrame (s : State) : State :=
  { s with fb := [] }

/-! ### Control (10_state.md R18, R22) -/

/-- `L = RxPeek()`: the length latch takes the head byte of the operation (40_stream_ops.md R72). -/
def latch (b : Byte) (s : State) : State :=
  { s with len := b }

/-- `return`: the invocation ends (40_stream_ops.md R70). -/
def halt (s : State) : State :=
  { s with run := .halted }

/-- The move that comes first has had its turn (70_reset_and_hazards.md R150; the model's own field). -/
def takeTurn (s : State) : State :=
  { s with sched := s.sched.tail }

/-! ### The traces (10_state.md R25) -/

/-- Appends DIAG events (60_exceptions.md R121). -/
def emitDiag (events : List Diag) (s : State) : State :=
  { s with diag := s.diag ++ events }

/-- Appends SINK events (42_apply_publish.md R105). -/
def emitSink (events : List Publish) (s : State) : State :=
  { s with sink := s.sink ++ events }

/-! ### Raising a cause (60_exceptions.md R128)

The block's exceptions do not trap: there is no saved state, no mode, no vector and no return instruction (R128, R129).
Raising a cause is the emission of its events; the recovery is that the operation ends at S1, or for STARVATION that
the invocation returns. -/

/-- The DIAG events of a cause, in order, for the bytes it records (60_exceptions.md R122 to R126). SUMMARY is not
raised: it is emitted by an apply (R133). -/
def Cause.events (c : Cause) (recorded : List Byte) : List Diag :=
  match c with
  | .summary => []
  | .noiseByte => [⟨.noiseByte, .info, .bytes recorded⟩]
  | .badEof => [⟨.badEof, .warning, .bytes []⟩, ⟨.badEof, .debug, .bytes recorded⟩]
  | .badChecksum => [⟨.badChecksum, .warning, .bytes []⟩, ⟨.badChecksum, .debug, .bytes recorded⟩]
  | .unknownType => [⟨.unknownType, .debug, .bytes recorded⟩]
  | .starvation => []

/-- `raise <Cause>`: the events of the cause are emitted and nothing else changes (60_exceptions.md R128). -/
def raise (c : Cause) (recorded : List Byte) (s : State) : State :=
  emitDiag (c.events recorded) s

/-- The routine SUMMARY event of an apply (42_apply_publish.md R116). -/
def emitSummary (r : Record) (s : State) : State :=
  emitDiag [⟨.summary, .info, .record r⟩] s

/-! ### Publication (42_apply_publish.md R105, R111 to R113) -/

/-- `if BIND[bit] = 1: Publish(sink, num, den)` (42_apply_publish.md R107, R112). -/
def publish (sink : SinkId) (num : Nat) (s : State) : State :=
  if s.bind.getLsbD sink.bit then emitSink [⟨sink, num, sink.den⟩] s else s

/-- `for k in 1..5: if bound: Publish(sink of sub-channel k - 1, register k, den)`, ascending (42_apply_publish.md
R108 to R110, R113). Slot 0 has no sink (R111). -/
def publishSlots {w : Nat} (sink : SubChannel → SinkId) (regs : Slots w) (s : State) : State :=
  subChannels.foldl (fun t c => publish (sink c) (regs.get c.slot).toNat t) s

end Sys2Proof.Machine
end

