-- ==== Sys2Proof/Machine/Agents.lean ====
section
/-! DEFINITION. The fetch of the PARSER, its IDLE operation, and the moves of the HOST and the PRODUCER (10_state.md
R10). None of these is a row of the opcode table. -/

namespace Sys2Proof.Machine

/-- Classification at S1: the operation that the head byte selects, none when no byte is available
(40_stream_ops.md R71, R72). Nothing is consumed. -/
def fetch (s : State) : Option Instr :=
  match rxPeek s with
  | none => none
  | some b => some (decodeLen b)

/-- IDLE: no byte is available and the invocation returns (40_stream_ops.md R71). -/
def idle (s : State) : Host.Outcome State Fault Refusal :=
  .next (halt s)

/-- The PARSER has no enabled step while HALTED: nothing changes (10_state.md R18, 60_exceptions.md R141;
notes/assumptions/7.md). -/
def wait (s : State) : Host.Outcome State Fault Refusal :=
  .next s

/-- A HOST tick starts an invocation; while RUNNING it is no move (40_stream_ops.md R70). -/
def hostTick (s : State) : Host.Outcome State Fault Refusal :=
  match s.run with
  | .halted => .next { s with run := .running }
  | .running => .refused .tickWhileRunning

/-- A HOST write of `BIND`, all 16 bits; while RUNNING it is no move (10_state.md R19, 70_reset_and_hazards.md R158). -/
def hostWriteBind (value : BitVec 16) (s : State) : Host.Outcome State Fault Refusal :=
  match s.run with
  | .halted => .next { s with bind := value }
  | .running => .refused .bindWhileRunning

/-- A HOST reset puts the block in its reset state; while RUNNING it is no move (70_reset_and_hazards.md R145, R146).
The model's own two fields, the schedule still to come and the count of draws, go on (notes/assumptions/9.md). -/
def hostReset (s : State) : Host.Outcome State Fault Refusal :=
  match s.run with
  | .halted => .next { State.reset with draws := s.draws, sched := s.sched }
  | .running => .refused .resetWhileRunning

/-- The PRODUCER appends one byte at the tail of `rx`, at any moment (20_memory.md R47). -/
def producerAppend (b : Byte) (s : State) : Host.Outcome State Fault Refusal :=
  .next { s with rx := s.rx ++ [b] }

/-- The given bytes have arrived and nothing else, an invocation is in progress and no other turn comes before the
PARSER's: what a loaded program is on this machine (notes/assumptions/11.md). -/
def placeStream (bytes : List Byte) (s : State) : State :=
  { s with rx := bytes, run := .running, sched := [] }

end Sys2Proof.Machine
end

