-- ==== Sys2Proof/Machine/Flags.lean ====
section
/-! DEFINITION. The block has no flags (10_state.md R24). Its conditions are the availability test and the two checks
of a loaded frame, each on values read in the same operation; `L` is the length latch. -/

namespace Sys2Proof.Machine

/-- The bytes that a frame of the latched length takes, `L + 2` (40_stream_ops.md R76, R85). -/
def frameSize (s : State) : Nat :=
  s.len.toNat + 2

/-- `RxAvail() < L + 2` (40_stream_ops.md R77). -/
def starved (s : State) : Bool :=
  rxAvail s < frameSize s

/-- `FB[L+1] = 0xC0` (40_stream_ops.md R79). -/
def eofOk (s : State) : Bool :=
  s.fb.get (s.len.toNat + 1) == some Config.eof

/-- The cells at offsets `[1, L)`, which the checksum covers (40_stream_ops.md R80, 30_encoding.md R53). -/
def checksummed (s : State) : List Byte :=
  (s.fb.frame.take s.len.toNat).drop 1

/-- `Sum8(FB[1..L-1]) = FB[L]` (40_stream_ops.md R80). -/
def checksumOk (s : State) : Bool :=
  s.fb.get s.len.toNat == some (sum8 (checksummed s))

end Sys2Proof.Machine
end

