-- ==== Sys2Proof/Machine/Operands.lean ====
section
/-! DEFINITION. The operands of the message-level operations: cells of the frame buffer, the big-endian MemRead, and
the four record decoders (41_message_decode.md). -/

namespace Sys2Proof.Machine

/-- `FIELD_BASE`: the frame offset of the first measurement field (00_scope.md R6, 30_encoding.md R57,
90_conflicts.md C2). -/
def fieldBase : Nat := 2

/-- A read of cell `offset` of the frame buffer. A specified cell gives its byte; an unspecified one gives any byte, a
free value of the present draw (41_message_decode.md R97). -/
def readCell (s : State) (offset : Fin Config.fbSize) : Byte :=
  (s.fb.get offset.val).getD (Config.freeByte s.draws offset.val)

/-- `MemRead(offset, 2)`: two cells, the one at the lower offset the more significant (20_memory.md R36). -/
def memRead2 (s : State) (offset : Nat) (h : offset + 2 ≤ Config.fbSize) : BitVec 16 :=
  readCell s ⟨offset, by omega⟩ ++ readCell s ⟨offset + 1, by omega⟩

/-- `MemRead(offset, 4)`: four cells, most significant first (20_memory.md R36). -/
def memRead4 (s : State) (offset : Nat) (h : offset + 4 ≤ Config.fbSize) : BitVec 32 :=
  readCell s ⟨offset, by omega⟩ ++ readCell s ⟨offset + 1, by omega⟩ ++
    readCell s ⟨offset + 2, by omega⟩ ++ readCell s ⟨offset + 3, by omega⟩

/-- The 16-bit field of slot `k`, at frame offset `2 + 2k` (30_encoding.md R59). -/
def field16 (s : State) (k : Slot) : BitVec 16 :=
  memRead2 s (fieldBase + 2 * k.val) (by have := k.isLt; simp only [fieldBase, Config.fbSize]; omega)

/-- The 32-bit field of slot `k`, at frame offset `2 + 4k` (30_encoding.md R60, R61). -/
def field32 (s : State) (k : Slot) : BitVec 32 :=
  memRead4 s (fieldBase + 4 * k.val) (by have := k.isLt; simp only [fieldBase, Config.fbSize]; omega)

/-- `DecodeVoltage()`: the field of a Voltage record (41_message_decode.md R91). -/
def decodeVoltage (s : State) : BitVec 16 :=
  memRead2 s fieldBase (by decide)

/-- `DecodeCurrent()`: the six fields of a Current record (41_message_decode.md R92). -/
def decodeCurrent (s : State) : Slots 16 :=
  Slots.ofFn (field16 s)

/-- `DecodePower()`: the six fields of a Power record (41_message_decode.md R93). -/
def decodePower (s : State) : Slots 32 :=
  Slots.ofFn (field32 s)

/-- `DecodeEnergy()`: the six fields of an EnergyDelta record (41_message_decode.md R94). -/
def decodeEnergy (s : State) : Slots 32 :=
  Slots.ofFn (field32 s)

/-- The type byte `T = FB[1]` (41_message_decode.md R90). -/
def typeByte (s : State) : Byte :=
  readCell s ⟨1, by decide⟩

/-- The decode stage is over: a later read of an unspecified cell is another occurrence, with a draw of its own
(41_message_decode.md R97). Each decoder reads each cell at most once (R96), so one draw serves one decode. -/
def nextDraw (s : State) : State :=
  { s with draws := s.draws + 1 }

end Sys2Proof.Machine
end

