-- ==== Sys2Proof/Machine/Message.lean ====
section
/-! DEFINITION. The meanings of the message-level operations: decode a record from the frame buffer, then apply it
(41_message_decode.md R90 to R95, 42_apply_publish.md R107 to R110). They run inside the ACCEPTED outcome of FRAME
(40_stream_ops.md R81), which calls `dispatch`. -/

namespace Sys2Proof.Machine

/-! ### Apply -/

/-- Apply of a Voltage record (42_apply_publish.md R107). -/
def applyVoltage (v : BitVec 16) (s : State) : State :=
  emitSummary (.voltage v) (publish .volt v.toNat { s with v := v })

/-- Apply of a Current record (42_apply_publish.md R108). -/
def applyCurrent (c : Slots 16) (s : State) : State :=
  emitSummary (.current c) (publishSlots .cur c { s with i := c })

/-- Apply of a Power record (42_apply_publish.md R109). -/
def applyPower (p : Slots 32) (s : State) : State :=
  emitSummary (.power p) (publishSlots .pow p { s with p := p })

/-- `E[k] <- (E[k] + d[k]) mod 2^64`: the delta is zero-extended and the carry out of bit 63 is dropped
(42_apply_publish.md R110, R114; notes/assumptions/17.md). -/
def accumulate (e : Slots 64) (d : Slots 32) : Slots 64 :=
  Slots.ofFn fun k => e.get k + (d.get k).setWidth 64

/-- Apply of an EnergyDelta record, the integrator: all six additions, then the publications of the new totals
(42_apply_publish.md R110). -/
def applyEnergy (d : Slots 32) (s : State) : State :=
  let total := accumulate s.e d
  emitSummary (.energyDelta d) (publishSlots .ene total { s with e := total })

/-! ### The five meanings -/

/-- MSG_VOLTAGE (41_message_decode.md R91, 42_apply_publish.md R107). -/
def execMsgVoltage (s : State) : Host.Outcome State Fault Refusal :=
  .next (applyVoltage (decodeVoltage s) (nextDraw s))

/-- MSG_CURRENT (41_message_decode.md R92, 42_apply_publish.md R108). -/
def execMsgCurrent (s : State) : Host.Outcome State Fault Refusal :=
  .next (applyCurrent (decodeCurrent s) (nextDraw s))

/-- MSG_POWER (41_message_decode.md R93, 42_apply_publish.md R109). -/
def execMsgPower (s : State) : Host.Outcome State Fault Refusal :=
  .next (applyPower (decodePower s) (nextDraw s))

/-- MSG_ENERGY (41_message_decode.md R94, 42_apply_publish.md R110). -/
def execMsgEnergy (s : State) : Host.Outcome State Fault Refusal :=
  .next (applyEnergy (decodeEnergy s) (nextDraw s))

/-- MSG_UNKNOWN: the dump of the whole frame, and nothing else (41_message_decode.md R95, 60_exceptions.md R125). -/
def execMsgUnknown (s : State) : Host.Outcome State Fault Refusal :=
  .next (raise .unknownType s.fb.frame s)

/-- `Dispatch(T)`: exactly one arm, chosen by the type byte alone (41_message_decode.md R90). -/
def dispatch (t : Byte) (s : State) : Host.Outcome State Fault Refusal :=
  if t = Config.tVoltage then execMsgVoltage s
  else if t = Config.tCurrent then execMsgCurrent s
  else if t = Config.tPower then execMsgPower s
  else if t = Config.tEnergy then execMsgEnergy s
  else execMsgUnknown s

end Sys2Proof.Machine
end

