-- ==== Sys2Proof/Machine/Stream.lean ====
section
/-! DEFINITION. The meanings of the stream-level operations (40_stream_ops.md R73 to R81). -/

namespace Sys2Proof.Machine

/-- What the three drop operations share: latch the head byte, consume exactly one byte, and let `note` report the
byte read (40_stream_ops.md R73 to R75). The refusal is a broken guarantee of the caller (20_memory.md R32). -/
def dropOne (head : Byte) (note : List Byte → State → State) (s : State) : Host.Outcome State Fault Refusal :=
  if rxAvail s < 1 then .refused .readPastAvailable
  else
    let (bytes, t) := rxRead 1 (latch head s)
    .next (note bytes t)

/-- DROP_ZERO (40_stream_ops.md R73). -/
def execDropZero (s : State) : Host.Outcome State Fault Refusal :=
  dropOne 0x00#8 (raise .noiseByte) s

/-- DROP_FILLER: silent (40_stream_ops.md R74). -/
def execDropFiller (s : State) : Host.Outcome State Fault Refusal :=
  dropOne Config.busyByte (fun _ t => t) s

/-- DROP_OVERLEN (40_stream_ops.md R75). -/
def execDropOverlen (byte : Byte) (s : State) : Host.Outcome State Fault Refusal :=
  dropOne byte (raise .noiseByte) s

/-- The operation ends and the buffer is discarded; the next operation begins at S1 (40_stream_ops.md R79 to R81,
10_state.md R21). -/
def endFrame (o : Host.Outcome State Fault Refusal) : Host.Outcome State Fault Refusal :=
  match o with
  | .next t => .next (discardFrame t)
  | .fault r => .fault r
  | .refused r => .refused r

/-- The checks of a loaded frame, in order, and its dispatch (40_stream_ops.md R79 to R81). -/
def checkAndDispatch (s : State) : Host.Outcome State Fault Refusal :=
  if eofOk s = false then .next (raise .badEof s.fb.frame s)
  else if checksumOk s = false then .next (raise .badChecksum s.fb.frame s)
  else dispatch (typeByte s) s

/-- FRAME with declared length `length`, its four outcomes tried in the order of 40_stream_ops.md R76: STARVED (R77),
then the load (R78), BAD_EOF (R79), BAD_CHECKSUM (R80), ACCEPTED (R81). -/
def execFrame (length : Byte) (s : State) : Host.Outcome State Fault Refusal :=
  let s := latch length s
  if starved s then .next (halt (raise .starvation [] s))
  else if Config.fbSize < frameSize s then .fault .frameBufferOverrun
  else
    let (bytes, t) := rxRead (frameSize s) s
    endFrame (checkAndDispatch (loadFrame bytes t))

end Sys2Proof.Machine
end

