-- ==== Sys2Proof/Machine/Dispatch.lean ====
section
/-! DEFINITION. What each operation of the opcode table does. -/

namespace Sys2Proof.Machine

def exec (i : Instr) (s : State) : Host.Outcome State Fault Refusal :=
  match i with
  | .dropZero => Sys2Proof.Machine.execDropZero s
  | .dropFiller => Sys2Proof.Machine.execDropFiller s
  | .dropOverlen byte => Sys2Proof.Machine.execDropOverlen byte s
  | .frame length => Sys2Proof.Machine.execFrame length s
  | .msgVoltage => Sys2Proof.Machine.execMsgVoltage s
  | .msgCurrent => Sys2Proof.Machine.execMsgCurrent s
  | .msgPower => Sys2Proof.Machine.execMsgPower s
  | .msgEnergy => Sys2Proof.Machine.execMsgEnergy s
  | .msgUnknown _ => Sys2Proof.Machine.execMsgUnknown s

end Sys2Proof.Machine
end

