-- ==== Sys2Proof/Machine/Step.lean ====
section
/-! DEFINITION. One step: the turn of the agent whose move comes next. A step of the PARSER is one whole operation
(92_eei_decisions.md D1). -/

namespace Sys2Proof.Machine

/-- The PARSER's turn: nothing while HALTED; while RUNNING, IDLE when no byte is available and otherwise the operation
that the head byte selects (40_stream_ops.md R70 to R72). -/
def parserStep (s : State) : Host.Outcome State Fault Refusal :=
  match s.run with
  | .halted => wait s
  | .running =>
    match fetch s with
    | none => idle s
    | some i => exec i s

/-- The turn of a move's agent, on the state whose schedule no longer holds the move (10_state.md R10). -/
def moveStep (m : Move) (s : State) : Host.Outcome State Fault Refusal :=
  match m with
  | .parser => parserStep s
  | .append b => producerAppend b s
  | .tick => hostTick s
  | .writeBind value => hostWriteBind value s
  | .reset => hostReset s

/-- One step: the next move of the schedule, or the PARSER's turn when none is left (70_reset_and_hazards.md R150).
A state lists finitely many moves (DESIGN CHOICE, notes/assumptions/20.md); the run under an endless schedule, each of
its turns a step of this function, is `runUnder` of Machine/Schedule.lean. -/
def step (s : State) : Host.Outcome State Fault Refusal :=
  match s.sched with
  | [] => parserStep s
  | m :: _ => moveStep m (takeTurn s)

/-- `s` with the instruction's bytes where step fetches its next instruction: at the head of the stream, with an
invocation in progress and the PARSER's turn next (notes/assumptions/11.md). -/
def State.withFetchWord (s : State) (nbits w : Nat) : State :=
  placeStream (wordStream nbits w) s

end Sys2Proof.Machine
end

