-- ==== Sys2Proof/Machine/Schedule.lean ====
section
/-! DEFINITION. Endless schedules (70_reset_and_hazards.md R150, R163): whose turn comes next for ever, and the run of
the machine under one. A schedule stands beside State and is no part of it, so it may be a function. -/

namespace Sys2Proof.Machine

/-- A schedule without an end: the `n`-th turn. The HOST and the PRODUCER may move at any moment the rules allow them, so
a claim quantifies over these (70_reset_and_hazards.md R150; notes/assumptions/20.md). -/
abbrev Schedule := Nat → Move

/-- The step in which the environment gives the coming turn, ahead of whatever the state still schedules. -/
def turnOf (m : Move) (s : State) : Host.Outcome State Fault Refusal :=
  step { s with sched := m :: s.sched }

/-- The first `n` turns of a schedule, stopping at the first fault or refusal. -/
def runUnder (env : Schedule) : (n : Nat) → (s : State) → Host.Outcome State Fault Refusal
  | 0, s => .next s
  | n + 1, s =>
    match runUnder env n s with
    | .next t => turnOf (env n) t
    | .fault r => .fault r
    | .refused r => .refused r

/-- The first `n` turns as a list. -/
def Schedule.first (env : Schedule) (n : Nat) : List Move :=
  (List.range n).map env

/-- Every move of the schedule is one when its turn comes: the HOST moves only while HALTED
(70_reset_and_hazards.md R146, R150, R158). -/
def Schedule.admissible (env : Schedule) (s : State) : Prop :=
  ∀ n, ∃ t, runUnder env n s = .next t

/-- The premise of liveness claims: whenever an invocation has returned the HOST ticks again, with no bound on the
delay (70_reset_and_hazards.md R150). -/
def Schedule.hostTicksAgain (env : Schedule) (s : State) : Prop :=
  ∀ n t, runUnder env n s = .next t → t.run = .halted → ∃ m, n ≤ m ∧ env m = .tick

/-- The PARSER gets turn after turn. The spec does not say it; without it an invocation in progress need never go on
(DEDUCED, notes/assumptions/21.md). -/
def Schedule.parserGoesOn (env : Schedule) : Prop :=
  ∀ n, ∃ m, n ≤ m ∧ env m = .parser

/-- The PRODUCER appends only finitely many bytes (40_stream_ops.md R83). -/
def Schedule.appendsEnd (env : Schedule) : Prop :=
  ∃ last, ∀ n b, last ≤ n → env n ≠ .append b

/-- Endless appends, one before each turn of the PARSER: a PRODUCER that is as fast as the PARSER
(70_reset_and_hazards.md R163). -/
def feeding (byte : Nat → Byte) : Schedule := fun n =>
  if n % 2 = 0 then .append (byte (n / 2)) else .parser

end Sys2Proof.Machine
end

