-- ==== Sys2Proof/Machine/Reference.lean ====
section
/-! DEFINITION. The reference stream function `Parse` (40_stream_ops.md R84) over byte sequences, written apart from
the machine's buffer and control state, and what each of its outcomes does to the measurement state. Nothing in the
step reads this file. -/

namespace Sys2Proof.Machine

/-- The outcomes of `Parse` (40_stream_ops.md R84). -/
inductive Parsed where
  /-- One byte dropped, with a NOISE_BYTE event when `noisy`. -/
  | drop (b : Byte) (noisy : Bool)
  /-- A candidate frame rejected for its EOF byte. -/
  | badEof (frame : List Byte)
  /-- A candidate frame rejected for its checksum. -/
  | badChecksum (frame : List Byte)
  /-- A valid frame. -/
  | valid (frame : List Byte)
deriving DecidableEq, Repr

/-- The outcome of a candidate frame of declared length `L`, its `L + 2` bytes given (40_stream_ops.md R84). -/
def parseFrame (L : Nat) (b : List Byte) : Parsed :=
  if b[L + 1]? ≠ some Config.eof then .badEof b
  else if some (sum8 ((b.take L).drop 1)) ≠ b[L]? then .badChecksum b
  else .valid b

/-- `Parse` for at most `fuel` outcomes. -/
def parseUpTo : (fuel : Nat) → List Byte → List Parsed × List Byte
  | 0, s => ([], s)
  | _ + 1, [] => ([], [])
  | fuel + 1, b :: tail =>
    if b = 0x00#8 then
      let (out, rem) := parseUpTo fuel tail
      (.drop b true :: out, rem)
    else if b = Config.busyByte then
      let (out, rem) := parseUpTo fuel tail
      (.drop b false :: out, rem)
    else if Config.maxMsgLength ≤ b.toNat then
      let (out, rem) := parseUpTo fuel tail
      (.drop b true :: out, rem)
    else if (b :: tail).length < b.toNat + 2 then ([], b :: tail)
    else
      let (out, rem) := parseUpTo fuel ((b :: tail).drop (b.toNat + 2))
      (parseFrame b.toNat ((b :: tail).take (b.toNat + 2)) :: out, rem)

/-- `Parse(s)`: every outcome takes at least one byte, so as many outcomes as there are bytes are enough
(40_stream_ops.md R83, R84). -/
def parse (s : List Byte) : List Parsed × List Byte :=
  parseUpTo s.length s

/-- How many bytes of the stream an outcome takes (40_stream_ops.md R82). -/
def Parsed.size : Parsed → Nat
  | .drop _ _ => 1
  | .badEof b => b.length
  | .badChecksum b => b.length
  | .valid b => b.length

/-- The valid frames among the outcomes, in order. -/
def validFrames (outs : List Parsed) : List (List Byte) :=
  outs.filterMap fun o =>
    match o with
    | .valid b => some b
    | .drop _ _ | .badEof _ | .badChecksum _ => none

/-- What a valid frame does to the measurement state and the traces: the message operation that its type byte selects
runs on a buffer that holds it (41_message_decode.md R90), and the buffer is discarded. -/
def applyFrame (b : List Byte) (s : State) : State :=
  let t := loadFrame b s
  discardFrame <|
    match decodeMsg (typeByte t) with
    | .msgVoltage => applyVoltage (decodeVoltage t) (nextDraw t)
    | .msgCurrent => applyCurrent (decodeCurrent t) (nextDraw t)
    | .msgPower => applyPower (decodePower t) (nextDraw t)
    | .msgEnergy => applyEnergy (decodeEnergy t) (nextDraw t)
    | .dropZero | .dropFiller | .dropOverlen _ | .frame _ | .msgUnknown _ => raise .unknownType b t

/-- What an outcome does: the bytes it takes leave the stream, and its events and register writes happen
(40_stream_ops.md R73 to R81). -/
def Parsed.effect (o : Parsed) (s : State) : State :=
  match o with
  | .drop b true => raise .noiseByte [b] (consume 1 s)
  | .drop _ false => consume 1 s
  | .badEof b => discardFrame (raise .badEof b (consume b.length s))
  | .badChecksum b => discardFrame (raise .badChecksum b (consume b.length s))
  | .valid b => applyFrame b (consume b.length s)

/-- What a list of outcomes does, in order. -/
def effects (outs : List Parsed) (s : State) : State :=
  outs.foldl (fun t o => o.effect t) s

/-- A well-formed frame: a legal length byte, `L + 2` bytes, the checksum at offset `L` and the EOF byte at offset
`L + 1` (30_encoding.md R50, R53, R54). -/
def isFrame (b : List Byte) : Bool :=
  match b with
  | [] => false
  | len :: _ =>
    legalLength len && b.length == len.toNat + 2 && b[len.toNat + 1]? == some Config.eof &&
      b[len.toNat]? == some (sum8 ((b.take len.toNat).drop 1))

/-- One item of a well-formed stream (30_encoding.md R50). -/
inductive Item where
  | filler
  | frame (b : List Byte)
deriving DecidableEq, Repr

/-- The bytes of an item. -/
def Item.bytes : Item → List Byte
  | .filler => fillBytes
  | .frame b => b

/-- The frames among the items, in order. -/
def Item.frames (items : List Item) : List (List Byte) :=
  items.filterMap fun it =>
    match it with
    | .filler => none
    | .frame b => some b

/-- Every frame among the items is well formed. -/
def Item.clean (items : List Item) : Bool :=
  items.all fun it =>
    match it with
    | .filler => true
    | .frame b => isFrame b

end Sys2Proof.Machine
end

