-- ==== Sys2Proof/Safety.lean ====
section
/-! DEFINITION. The terms in which claims about the block are stated: what a step leaves alone, what the cells of the
buffer may hold, which schedules and streams a claim speaks of, which traces are legal, and the invariant. -/

namespace Sys2Proof.Machine

/-- `n` steps of the machine, stopping at the first fault or refusal. -/
def runFor (n : Nat) (s : State) : Host.Outcome State Fault Refusal :=
  Host.Core.run Sys2Proof.core n s

/-! ### What an operation leaves alone -/

/-- The measurement registers, the accumulators and `BIND` are as before. -/
structure SameRegisters (s t : State) : Prop where
  v : t.v = s.v
  i : t.i = s.i
  p : t.p = s.p
  e : t.e = s.e
  bind : t.bind = s.bind

/-- Every cell of the frame buffer reads as before. -/
def SameCells (s t : State) : Prop :=
  ∀ offset, t.fb.get offset = s.fb.get offset

/-- Every cell of the frame buffer is unspecified (10_state.md R21). -/
def NoCells (t : State) : Prop :=
  ∀ offset, t.fb.get offset = none

/-- The stream, the cursor, the control state, the length latch and the schedule are as before. -/
structure SameStream (s t : State) : Prop where
  rx : t.rx = s.rx
  pos : t.pos = s.pos
  run : t.run = s.run
  len : t.len = s.len
  sched : t.sched = s.sched

/-- A choice of one byte for every cell that agrees with the specified cells: what a decoder may read
(41_message_decode.md R97). -/
def Reads (m : Memory) (cell : Nat → Byte) : Prop :=
  ∀ offset b, m.get offset = some b → cell offset = b

/-- `MemRead(offset, 2)` of a choice of cells, as a number (20_memory.md R36). -/
def big16 (cell : Nat → Byte) (offset : Nat) : Nat :=
  (cell offset).toNat * 256 + (cell (offset + 1)).toNat

/-- `MemRead(offset, 4)` of a choice of cells, as a number (20_memory.md R36). -/
def big32 (cell : Nat → Byte) (offset : Nat) : Nat :=
  (cell offset).toNat * 16777216 + (cell (offset + 1)).toNat * 65536 + (cell (offset + 2)).toNat * 256 +
    (cell (offset + 3)).toNat

/-- The Publish events of one apply of a six-slot record: sub-channels in ascending order, those whose bit of `BIND`
from `first` on is set, each with the register of slot `c + 1` (42_apply_publish.md R108 to R111). -/
def slotEvents {w : Nat} (sink : SubChannel → SinkId) (first den : Nat) (bind : BitVec 16) (regs : Slots w) :
    List Publish :=
  [0, 1, 2, 3, 4].filterMap fun c : SubChannel =>
    if bind.getLsbD (first + c.val) then some ⟨sink c, (regs.get c.succ).toNat, den⟩ else none

/-- The register that a sink's value is computed from, as a number (42_apply_publish.md R106). -/
def sinkRegister (t : State) : SinkId → Nat
  | .volt => t.v.toNat
  | .cur c => (t.i.get c.succ).toNat
  | .pow c => (t.p.get c.succ).toNat
  | .ene c => (t.e.get c.succ).toNat

/-! ### Turns, schedules and streams -/

/-- The next turn is the PARSER's and an invocation is in progress. -/
def parserTurn (s : State) : Bool :=
  s.run == .running && (s.sched == [] || s.sched.head? == some .parser)

/-- The candidate frame at the head of the stream, when its length is legal and all its bytes have arrived. -/
def candidate (s : State) : Option (List Byte) :=
  match s.rx with
  | [] => none
  | b :: tail => if legalLength b && b.toNat + 2 ≤ (b :: tail).length then some ((b :: tail).take (b.toNat + 2)) else none

/-- The type byte of the frame that the next step accepts, if it accepts one (40_stream_ops.md R81). -/
def acceptedType (s : State) : Option Byte :=
  if parserTurn s then
    match candidate s with
    | none => none
    | some b => if isFrame b then b[1]? else none
  else none

/-- No complete operation can be made of the bytes buffered: there are none, or their head is a legal length and the
frame is incomplete (70_reset_and_hazards.md R168). -/
def awaitsBytes (rx : List Byte) : Bool :=
  match rx with
  | [] => true
  | b :: tail => legalLength b && (b :: tail).length < b.toNat + 2

/-- The run is finished as far as the bytes that have arrived go (70_reset_and_hazards.md R168). -/
def finished (s : State) : Bool :=
  s.run == .halted && awaitsBytes s.rx

/-- The bytes that a schedule's PRODUCER appends, in order. -/
def appended (moves : List Move) : List Byte :=
  moves.filterMap fun m =>
    match m with
    | .append b => some b
    | .parser | .tick | .writeBind _ | .reset => none

/-- The move is the HOST's rebinding or reset. -/
def rewires : Move → Bool
  | .writeBind _ => true
  | .reset => true
  | .parser | .append _ | .tick => false

/-- The move is the HOST's, and so is a move only while HALTED (70_reset_and_hazards.md R146, R158). -/
def hostMove : Move → Bool
  | .tick => true
  | .writeBind _ => true
  | .reset => true
  | .parser | .append _ => false

/-- No rebinding and no reset stands in the schedule. -/
def steadyHost (s : State) : Prop :=
  ∀ m ∈ s.sched, rewires m = false

/-- The two states agree in everything but the length latch, which means nothing between operations
(10_state.md R22). -/
def AgreeButLatch (s t : State) : Prop :=
  t = { s with len := t.len }

/-! ### Legal traces and the invariant -/

/-- A candidate frame by its length byte: legal, with all its bytes. -/
def wholeCandidate (b : List Byte) : Bool :=
  match b with
  | [] => false
  | len :: _ => legalLength len && b.length == len.toNat + 2

/-- The EOF byte of a candidate frame is right. -/
def eofRight (b : List Byte) : Bool :=
  match b with
  | [] => false
  | len :: _ => b[len.toNat + 1]? == some Config.eof

/-- A DIAG event that the rules of 60_exceptions.md and 42_apply_publish.md R116 can emit. -/
def legalDiag (d : Diag) : Bool :=
  match d.cause, d.severity, d.data with
  | .summary, .info, .record _ => true
  | .noiseByte, .info, .bytes [b] => b == 0x00#8 || overlenByte b
  | .badEof, .warning, .bytes [] => true
  | .badEof, .debug, .bytes b => wholeCandidate b && !eofRight b
  | .badChecksum, .warning, .bytes [] => true
  | .badChecksum, .debug, .bytes b => wholeCandidate b && eofRight b && !isFrame b
  | .unknownType, .debug, .bytes b => isFrame b && !(b[1]?.any recognisedType)
  | _, _, _ => false

/-- The bound on the number that a sink's event carries (10_state.md R11 to R15). -/
def SinkId.bound : SinkId → Nat
  | .volt => 2 ^ 16
  | .cur _ => 2 ^ 16
  | .pow _ => 2 ^ 32
  | .ene _ => 2 ^ 64

/-- A SINK event that 42_apply_publish.md R105 allows. -/
def legalPublish (ev : Publish) : Bool :=
  ev.den == ev.sink.den && ev.num < ev.sink.bound

/-- What holds between operations: the buffer is discarded, and both traces hold only events that the rules emit. -/
structure Invariant (s : State) : Prop where
  buffer : s.fb = []
  diag : ∀ d ∈ s.diag, legalDiag d = true
  sink : ∀ ev ∈ s.sink, legalPublish ev = true

end Sys2Proof.Machine
end

