-- ==== Sys2Proof/Certificates/Slice0/Obligations.lean ====
section
/-! DEFINITION. The statements for the provers. Each docstring says which rule of spec/ the statement formalises. A
statement whose docstring says "the spec's own decision" or "derived" rests on a rule that the spec marks so. -/

open Sys2Proof Sys2Proof.Machine

/-! ### Encoding -/

/-- Decode and encode agree, for every well-formed operation with every operand: from 30_encoding.md sections 1 and 3
and the opcode table. Bytes after the selecting byte are left as they are. -/
def Obligations.DecodeEncodeRoundTrip : Prop :=
  ∀ (i : Instr) (rest : List Byte), i.wf = true → decode i.format (encode i ++ rest) = .ok (i, rest)

/-- The other direction: every byte of either format is the word of exactly one well-formed operation, the one it
decodes to (30_encoding.md sections 1, 3 and 5: the rows partition the 256 values). -/
def Obligations.EveryByteIsOneOperation : Prop :=
  ∀ (f : Format) (b : Byte) (rest : List Byte),
    ∃ i : Instr, i.wf = true ∧ i.format = f ∧ decode f (b :: rest) = .ok (i, rest) ∧ encode i = [b] ∧
      ∀ j : Instr, j.wf = true → j.format = f → encode j = [b] → j = i

/-- The four classes of the byte at the head of the stream (30_encoding.md R51): the fetch selects the operation by
its value alone, and exactly one class holds. -/
def Obligations.HeadByteClasses : Prop :=
  ∀ (s : State) (L : Byte) (rest : List Byte), s.rx = L :: rest →
    (L.toNat = 0x00 ↔ fetch s = some .dropZero) ∧
    (0x01 ≤ L.toNat ∧ L.toNat ≤ 0x2F ↔ fetch s = some (.frame L)) ∧
    (0x30 ≤ L.toNat ∧ L.toNat ≠ 0xB5 ↔ fetch s = some (.dropOverlen L)) ∧
    (L.toNat = 0xB5 ↔ fetch s = some .dropFiller)

/-- The dispatch on the type byte (41_message_decode.md R90): exactly one arm, chosen by `T` alone. -/
def Obligations.TypeByteDispatch : Prop :=
  ∀ (T : Byte) (s : State),
    (T = 0x0D#8 → dispatch T s = exec .msgVoltage s) ∧
    (T = 0x0E#8 → dispatch T s = exec .msgCurrent s) ∧
    (T = 0x0F#8 → dispatch T s = exec .msgPower s) ∧
    (T = 0x10#8 → dispatch T s = exec .msgEnergy s) ∧
    (T ≠ 0x0D#8 → T ≠ 0x0E#8 → T ≠ 0x0F#8 → T ≠ 0x10#8 → dispatch T s = exec (.msgUnknown T) s) ∧
    dispatch T s = exec (decodeMsg T) s

/-- Every byte matches exactly one row of each format of the opcode table, and the row bears the mnemonic of the
operation that the byte decodes to (30_encoding.md section 5, derived in the spec). -/
def Obligations.OpcodeRowsPartitionBytes : Prop :=
  ∀ (f : Format) (b : Byte),
    ∃ r, (rows f).filter (fun row => row.matches b) = [r] ∧ r.mnemonic = (decodeByte f b).mnemonic

/-- A few words written out from the encoding columns of spec/opcode_table.json decode to the operations they stand
for. -/
def Obligations.SampleWordsDecode : Prop :=
  decode .len [0b00000000#8] = .ok (.dropZero, []) ∧
  decode .len [0b10110101#8] = .ok (.dropFiller, []) ∧
  decode .len [0b00110000#8] = .ok (.dropOverlen 0x30#8, []) ∧
  decode .len [0b00101111#8, 0x42#8] = .ok (.frame 0x2F#8, [0x42#8]) ∧
  decode .msg [0b00001101#8] = .ok (.msgVoltage, []) ∧
  decode .msg [0b00001110#8] = .ok (.msgCurrent, []) ∧
  decode .msg [0b00001111#8] = .ok (.msgPower, []) ∧
  decode .msg [0b00010000#8] = .ok (.msgEnergy, []) ∧
  decode .msg [0b00010001#8] = .ok (.msgUnknown 0x11#8, [])

/-- The frame encoder gives well-formed frames of `L + 2` bytes with the type byte and the fields in their places
(30_encoding.md section 5, derived in the spec), for every type byte and up to 45 field bytes. -/
def Obligations.FrameEncoderGivesFrames : Prop :=
  ∀ (T : Byte) (fields : List Byte), fields.length ≤ 45 →
    isFrame (frameBytes T fields) = true ∧
    (frameBytes T fields).length = fields.length + 4 ∧
    (frameBytes T fields)[0]? = some (BitVec.ofNat 8 (fields.length + 2)) ∧
    (frameBytes T fields)[1]? = some T ∧
    (∀ k, k < fields.length → (frameBytes T fields)[k + 2]? = fields[k]?)

/-- `Sum8` is the true sum of the bytes modulo 256 (00_scope.md section 5.4, 40_stream_ops.md section 5). -/
def Obligations.SumOfBytesModulo256 : Prop :=
  ∀ bytes : List Byte, (sum8 bytes).toNat = (bytes.map BitVec.toNat).sum % 256

/-- MemRead is big-endian over 2 and 4 cells, and no bit of a byte is lost (20_memory.md R36). -/
def Obligations.MemReadIsBigEndian : Prop :=
  (∀ (s : State) (i : Nat) (h : i + 2 ≤ Config.fbSize),
    (memRead2 s i h).toNat = (readCell s ⟨i, by omega⟩).toNat * 256 + (readCell s ⟨i + 1, by omega⟩).toNat) ∧
  (∀ (s : State) (i : Nat) (h : i + 4 ≤ Config.fbSize),
    (memRead4 s i h).toNat =
      (readCell s ⟨i, by omega⟩).toNat * 16777216 + (readCell s ⟨i + 1, by omega⟩).toNat * 65536 +
        (readCell s ⟨i + 2, by omega⟩).toNat * 256 + (readCell s ⟨i + 3, by omega⟩).toNat)

/-! ### Stream-level operations

What the length latch holds after an operation, which means nothing in the spec (10_state.md section 7), is left out of
these statements but for `Obligations.FrameAcceptedResult`, whose equation fixes it and says so;
`Obligations.LatchHoldsHeadByte` says it of every operation. Both give it as the model's choice. -/

/-- DROP_ZERO (40_stream_ops.md R73): completes, with its whole effect and frame; it is selected exactly when `0x00`
stands at the head of the stream; and a run of `n` zero bytes is `n` DROP_ZERO operations and `n` events. -/
def Obligations.DropZeroResult : Prop :=
  (∀ (s : State) (rest : List Byte), s.rx = 0x00#8 :: rest →
    ∃ t, exec .dropZero s = .next t ∧ t.rx = rest ∧ t.pos = s.pos + 1 ∧
      t.diag = s.diag ++ [⟨.noiseByte, .info, .bytes [0x00#8]⟩] ∧ t.sink = s.sink ∧ t.run = s.run ∧
      SameRegisters s t ∧ SameCells s t ∧ t.draws = s.draws ∧ t.sched = s.sched) ∧
  (∀ s : State, fetch s = some .dropZero ↔ s.rx.head? = some 0x00#8) ∧
  (∀ (s : State) (n : Nat) (rest : List Byte), s.run = .running → s.sched = [] →
    s.rx = List.replicate n 0x00#8 ++ rest →
    ∃ t, runFor n s = .next t ∧ t.rx = rest ∧ t.pos = s.pos + n ∧
      t.diag = s.diag ++ List.replicate n ⟨.noiseByte, .info, .bytes [0x00#8]⟩ ∧ t.sink = s.sink ∧
      t.run = .running ∧ SameRegisters s t ∧ SameCells s t)

/-- DROP_FILLER (40_stream_ops.md R74): completes, silently, with its frame; and it is selected exactly when `0xB5`
stands at the head of the stream. -/
def Obligations.DropFillerResult : Prop :=
  (∀ (s : State) (rest : List Byte), s.rx = 0xB5#8 :: rest →
    ∃ t, exec .dropFiller s = .next t ∧ t.rx = rest ∧ t.pos = s.pos + 1 ∧
      t.diag = s.diag ∧ t.sink = s.sink ∧ t.run = s.run ∧
      SameRegisters s t ∧ SameCells s t ∧ t.draws = s.draws ∧ t.sched = s.sched) ∧
  (∀ s : State, fetch s = some .dropFiller ↔ s.rx.head? = some 0xB5#8)

/-- DROP_OVERLEN (40_stream_ops.md R75): for every byte of its range exactly one byte is dropped and reported, whatever
follows it; `0x30` and `0xC0` are in the range and `0x2F` is not. -/
def Obligations.DropOverlenResult : Prop :=
  (∀ (s : State) (L : Byte) (rest : List Byte), 0x30 ≤ L.toNat → L.toNat ≠ 0xB5 → s.rx = L :: rest →
    ∃ t, exec (.dropOverlen L) s = .next t ∧ t.rx = rest ∧ t.pos = s.pos + 1 ∧
      t.diag = s.diag ++ [⟨.noiseByte, .info, .bytes [L]⟩] ∧ t.sink = s.sink ∧ t.run = s.run ∧
      SameRegisters s t ∧ SameCells s t ∧ t.draws = s.draws ∧ t.sched = s.sched) ∧
  (∀ (s : State) (L : Byte), fetch s = some (.dropOverlen L) ↔
    s.rx.head? = some L ∧ 0x30 ≤ L.toNat ∧ L.toNat ≠ 0xB5) ∧
  decodeLen 0x30#8 = .dropOverlen 0x30#8 ∧ decodeLen 0xC0#8 = .dropOverlen 0xC0#8 ∧ decodeLen 0x2F#8 = .frame 0x2F#8

/-- A drop operation run where no byte is buffered breaks the caller's guarantee and is refused by name (20_memory.md
section 2, 93_implementation_defined.md U4); the fetch gives no operation there. The refusal is the model's, in
notes/assumptions/14.md. -/
def Obligations.DropsRefusedWithoutByte : Prop :=
  ∀ s : State, s.rx = [] →
    fetch s = none ∧
    exec .dropZero s = .refused .readPastAvailable ∧
    exec .dropFiller s = .refused .readPastAvailable ∧
    ∀ L : Byte, exec (.dropOverlen L) s = .refused .readPastAvailable

/-- FRAME, outcome STARVED (40_stream_ops.md R77): the invocation returns, nothing is consumed, nothing is logged, and
the same byte is peeked again; `L + 2` is at most 49. -/
def Obligations.FrameStarvedResult : Prop :=
  ∀ (s : State) (L : Byte) (rest : List Byte), 1 ≤ L.toNat → L.toNat ≤ 47 → s.rx = L :: rest →
    s.rx.length < L.toNat + 2 →
    L.toNat + 2 ≤ 49 ∧
    ∃ t, exec (.frame L) s = .next t ∧ t.run = .halted ∧ t.rx = s.rx ∧ t.pos = s.pos ∧ t.diag = s.diag ∧
      t.sink = s.sink ∧ SameRegisters s t ∧ SameCells s t ∧ t.draws = s.draws ∧ t.sched = s.sched ∧
      fetch t = some (.frame L)

/-- FRAME, load (40_stream_ops.md R78): exactly `L + 2` bytes are consumed into the frame buffer before any check is
made, cell `a` holding byte `a` of the stream, and every other cell is unspecified; the checks and the dispatch run on
that state, whose length latch is `L` and whose other fields are as before. -/
def Obligations.FrameLoadResult : Prop :=
  ∀ (s : State) (L : Byte), 1 ≤ L.toNat → L.toNat ≤ 47 → L.toNat + 2 ≤ s.rx.length →
    ∃ u, exec (.frame L) s = endFrame (checkAndDispatch u) ∧
      u.pos = s.pos + L.toNat + 2 ∧ u.rx = s.rx.drop (L.toNat + 2) ∧
      (∀ a, a ≤ L.toNat + 1 → u.fb.get a = s.rx[a]?) ∧
      (∀ a, L.toNat + 2 ≤ a → u.fb.get a = none) ∧ u.len = L ∧
      u.diag = s.diag ∧ u.sink = s.sink ∧ u.run = s.run ∧ SameRegisters s u ∧ u.draws = s.draws ∧ u.sched = s.sched

/-- FRAME, outcome BAD_EOF (40_stream_ops.md R79), whatever the checksum: the warning and the dump, the `L + 2` bytes
gone, no register written, no cell of the buffer left. -/
def Obligations.FrameBadEofResult : Prop :=
  ∀ (s : State) (L : Byte) (frame rest : List Byte), 1 ≤ L.toNat → L.toNat ≤ 47 →
    frame.length = L.toNat + 2 → frame[0]? = some L → frame[L.toNat + 1]? ≠ some 0xC0#8 → s.rx = frame ++ rest →
    ∃ t, exec (.frame L) s = .next t ∧ t.rx = rest ∧ t.pos = s.pos + L.toNat + 2 ∧
      t.diag = s.diag ++ [⟨.badEof, .warning, .bytes []⟩, ⟨.badEof, .debug, .bytes frame⟩] ∧
      t.sink = s.sink ∧ t.run = s.run ∧ SameRegisters s t ∧ NoCells t ∧ t.draws = s.draws ∧ t.sched = s.sched

/-- FRAME, outcome BAD_CHECKSUM (40_stream_ops.md R80), reached only when the EOF byte is right: the warning and the
dump, the `L + 2` bytes gone, no register written. The sum is over the cells `[1, L)`, none of them for `L = 1`. -/
def Obligations.FrameBadChecksumResult : Prop :=
  ∀ (s : State) (L : Byte) (frame rest : List Byte), 1 ≤ L.toNat → L.toNat ≤ 47 →
    frame.length = L.toNat + 2 → frame[0]? = some L → frame[L.toNat + 1]? = some 0xC0#8 →
    frame[L.toNat]? ≠ some (sum8 ((frame.take L.toNat).drop 1)) → s.rx = frame ++ rest →
    ∃ t, exec (.frame L) s = .next t ∧ t.rx = rest ∧ t.pos = s.pos + L.toNat + 2 ∧
      t.diag = s.diag ++ [⟨.badChecksum, .warning, .bytes []⟩, ⟨.badChecksum, .debug, .bytes frame⟩] ∧
      t.sink = s.sink ∧ t.run = s.run ∧ SameRegisters s t ∧ NoCells t ∧ t.draws = s.draws ∧ t.sched = s.sched

/-- FRAME, outcome ACCEPTED (40_stream_ops.md section 3, 41_message_decode.md section 1): the message operation that the
type byte selects runs on the state with the frame in the buffer, and the buffer is then discarded; for `L = 1` the type
byte is the checksum byte `0x00` and the operation is MSG_UNKNOWN. The equation of whole states also says that the latch
still holds `L` after FRAME, where the spec says it means nothing (10_state.md section 7): that clause is the model's
choice, notes/assumptions/2.md. -/
def Obligations.FrameAcceptedResult : Prop :=
  ∀ (s : State) (L T : Byte) (frame rest : List Byte), isFrame frame = true → frame[0]? = some L →
    frame[1]? = some T → s.rx = frame ++ rest →
    ∃ u, exec (decodeMsg T)
        { s with rx := rest, pos := s.pos + L.toNat + 2, len := L, fb := Memory.ofBytes 0 frame } = .next u ∧
      exec (.frame L) s = .next { u with fb := [] } ∧
      (L = 0x01#8 → T = 0x00#8 ∧ decodeMsg T = .msgUnknown 0x00#8)

/-- FRAME's four outcomes are exclusive and tried in order (40_stream_ops.md R76), told apart by what is seen of them:
the return, and the causes of the events added. -/
def Obligations.FrameOutcomesExclusive : Prop :=
  ∀ (s : State) (L : Byte) (rest : List Byte), 1 ≤ L.toNat → L.toNat ≤ 47 → s.run = .running → s.rx = L :: rest →
    ∃ t new, exec (.frame L) s = .next t ∧ t.diag = s.diag ++ new ∧
      (t.run = .halted ↔ s.rx.length < L.toNat + 2) ∧
      (new = [] ↔ s.rx.length < L.toNat + 2) ∧
      ((∃ d ∈ new, d.cause = .badEof) ↔
        L.toNat + 2 ≤ s.rx.length ∧ s.rx[L.toNat + 1]? ≠ some 0xC0#8) ∧
      ((∃ d ∈ new, d.cause = .badChecksum) ↔
        L.toNat + 2 ≤ s.rx.length ∧ s.rx[L.toNat + 1]? = some 0xC0#8 ∧
          s.rx[L.toNat]? ≠ some (sum8 ((s.rx.take L.toNat).drop 1))) ∧
      ((∃ d ∈ new, d.cause = .summary ∨ d.cause = .unknownType) ↔ isFrame (s.rx.take (L.toNat + 2)) = true)

/-- A declared length that the decoder never gives (48 or more), with its bytes buffered, asks for cells that do not
exist and faults by name (20_memory.md section 1; notes/assumptions/15.md); no legal length does, and every FRAME that the
fetch gives has a legal length. -/
def Obligations.FrameFaultsOnlyBeyondBuffer : Prop :=
  ∀ (s : State) (L : Byte),
    (exec (.frame L) s = .fault .frameBufferOverrun ↔ 48 ≤ L.toNat ∧ L.toNat + 2 ≤ s.rx.length) ∧
    (L.toNat ≤ 47 → ∃ t, exec (.frame L) s = .next t) ∧
    (fetch s = some (.frame L) → 1 ≤ L.toNat ∧ L.toNat ≤ 47) ∧
    (∀ b : Byte, decodeLen b = .frame L → L = b ∧ 1 ≤ L.toNat ∧ L.toNat ≤ 47)

/-! ### Message-level operations -/

/-- MSG_VOLTAGE (41_message_decode.md R91, 42_apply_publish.md R107), for every frame buffer: `V` takes
`FB[2]*256 + FB[3]`, a cell that no byte was loaded into reading as any byte; `V` is published when `BIND[0]` is 1; one
SUMMARY event; nothing else. -/
def Obligations.MsgVoltageResult : Prop :=
  ∀ s : State, ∃ t cell, exec .msgVoltage s = .next t ∧ Reads s.fb cell ∧
    t.v.toNat = big16 cell 2 ∧
    t.sink = s.sink ++ (if s.bind.getLsbD 0 then [⟨.volt, t.v.toNat, 100⟩] else []) ∧
    t.diag = s.diag ++ [⟨.summary, .info, .record (.voltage t.v)⟩] ∧
    t.i = s.i ∧ t.p = s.p ∧ t.e = s.e ∧ t.bind = s.bind ∧ SameStream s t ∧ SameCells s t

/-- MSG_CURRENT (41_message_decode.md R92, 42_apply_publish.md R108), for every frame buffer: `I[k]` takes the 16-bit
field at offset `2 + 2k`; the bound sub-channels of slots 1 to 5 are published in ascending order. -/
def Obligations.MsgCurrentResult : Prop :=
  ∀ s : State, ∃ t cell, exec .msgCurrent s = .next t ∧ Reads s.fb cell ∧
    (∀ k : Slot, (t.i.get k).toNat = big16 cell (2 + 2 * k.val)) ∧
    t.sink = s.sink ++ slotEvents .cur 1 100 s.bind t.i ∧
    t.diag = s.diag ++ [⟨.summary, .info, .record (.current t.i)⟩] ∧
    t.v = s.v ∧ t.p = s.p ∧ t.e = s.e ∧ t.bind = s.bind ∧ SameStream s t ∧ SameCells s t

/-- MSG_POWER (41_message_decode.md R93, 42_apply_publish.md R109), for every frame buffer: `P[k]` takes the 32-bit
field at offset `2 + 4k`. -/
def Obligations.MsgPowerResult : Prop :=
  ∀ s : State, ∃ t cell, exec .msgPower s = .next t ∧ Reads s.fb cell ∧
    (∀ k : Slot, (t.p.get k).toNat = big32 cell (2 + 4 * k.val)) ∧
    t.sink = s.sink ++ slotEvents .pow 6 1 s.bind t.p ∧
    t.diag = s.diag ++ [⟨.summary, .info, .record (.power t.p)⟩] ∧
    t.v = s.v ∧ t.i = s.i ∧ t.e = s.e ∧ t.bind = s.bind ∧ SameStream s t ∧ SameCells s t

/-- MSG_ENERGY (41_message_decode.md section 2, 42_apply_publish.md section 2), for every frame buffer: each delta is the 32-bit
field at offset `2 + 4k`, each `E[k]` takes `(E[k] + d[k]) mod 2^64`, and the new totals of the bound sub-channels are
published. That a total passing 2^64 wraps is the spec's own decision (42_apply_publish.md section 4,
notes/assumptions/17.md). -/
def Obligations.MsgEnergyResult : Prop :=
  ∀ s : State, ∃ t cell d, exec .msgEnergy s = .next t ∧ Reads s.fb cell ∧
    (∀ k : Slot, (d.get k).toNat = big32 cell (2 + 4 * k.val)) ∧
    (∀ k : Slot, (t.e.get k).toNat = ((s.e.get k).toNat + (d.get k).toNat) % 2 ^ 64) ∧
    t.sink = s.sink ++ slotEvents .ene 11 10000 s.bind t.e ∧
    t.diag = s.diag ++ [⟨.summary, .info, .record (.energyDelta d)⟩] ∧
    t.v = s.v ∧ t.i = s.i ∧ t.p = s.p ∧ t.bind = s.bind ∧ SameStream s t ∧ SameCells s t

/-- MSG_UNKNOWN (41_message_decode.md R95), for every type byte and buffer: one dump and no other change; the dump of a
canonical buffer whose cells hold a frame is that frame. -/
def Obligations.MsgUnknownResult : Prop :=
  ∀ (s : State) (T : Byte), ∃ t dump, exec (.msgUnknown T) s = .next t ∧
    t.diag = s.diag ++ [⟨.unknownType, .debug, .bytes dump⟩] ∧
    (∀ frame : List Byte, s.fb.wf = true → (∀ a, s.fb.get a = frame[a]?) → dump = frame) ∧
    t.sink = s.sink ∧ SameRegisters s t ∧ SameStream s t ∧ SameCells s t ∧ t.draws = s.draws

/-! ### Whole frames -/

/-- A Voltage frame on the wire, with any bytes after its field (40_stream_ops.md section 3, 41_message_decode.md
section 2, 42_apply_publish.md section 2): FRAME stores the raw value, publishes it if bound, and every other register
is unchanged. -/
def Obligations.VoltageFrameUpdatesVoltage : Prop :=
  ∀ (s : State) (raw : BitVec 16) (more rest : List Byte), more.length ≤ 43 →
    s.rx = frameBytes 0x0D#8 (be16 raw ++ more) ++ rest →
    ∃ t, exec (.frame (BitVec.ofNat 8 (more.length + 4))) s = .next t ∧ t.v = raw ∧
      t.rx = rest ∧ t.pos = s.pos + more.length + 6 ∧
      t.sink = s.sink ++ (if s.bind.getLsbD 0 then [⟨.volt, raw.toNat, 100⟩] else []) ∧
      t.diag = s.diag ++ [⟨.summary, .info, .record (.voltage raw)⟩] ∧
      t.i = s.i ∧ t.p = s.p ∧ t.e = s.e ∧ t.bind = s.bind ∧ t.run = s.run

/-- A Current frame on the wire, with any bytes after its fields: lane `k` goes to `I[k]` and no lane affects another
(41_message_decode.md sections 2 and 4, 42_apply_publish.md section 2). -/
def Obligations.CurrentFrameUpdatesCurrents : Prop :=
  ∀ (s : State) (c : Slots 16) (more rest : List Byte), more.length ≤ 33 →
    s.rx = frameBytes 0x0E#8 (slotBytes16 c ++ more) ++ rest →
    ∃ t, exec (.frame (BitVec.ofNat 8 (more.length + 14))) s = .next t ∧ t.i = c ∧
      t.rx = rest ∧ t.pos = s.pos + more.length + 16 ∧
      t.sink = s.sink ++ slotEvents .cur 1 100 s.bind c ∧
      t.diag = s.diag ++ [⟨.summary, .info, .record (.current c)⟩] ∧
      t.v = s.v ∧ t.p = s.p ∧ t.e = s.e ∧ t.bind = s.bind ∧ t.run = s.run

/-- A Power frame on the wire, with any bytes after its fields (41_message_decode.md sections 2 and 4,
42_apply_publish.md section 2). -/
def Obligations.PowerFrameUpdatesPowers : Prop :=
  ∀ (s : State) (p : Slots 32) (more rest : List Byte), more.length ≤ 21 →
    s.rx = frameBytes 0x0F#8 (slotBytes32 p ++ more) ++ rest →
    ∃ t, exec (.frame (BitVec.ofNat 8 (more.length + 26))) s = .next t ∧ t.p = p ∧
      t.rx = rest ∧ t.pos = s.pos + more.length + 28 ∧
      t.sink = s.sink ++ slotEvents .pow 6 1 s.bind p ∧
      t.diag = s.diag ++ [⟨.summary, .info, .record (.power p)⟩] ∧
      t.v = s.v ∧ t.i = s.i ∧ t.e = s.e ∧ t.bind = s.bind ∧ t.run = s.run

/-- An EnergyDelta frame on the wire, with any bytes after its fields, is added to the totals; when no total reaches
2^64 the addition is exact. The wrap at 2^64 is the spec's own decision (42_apply_publish.md section 4,
notes/assumptions/17.md). -/
def Obligations.EnergyFrameAddsDeltas : Prop :=
  ∀ (s : State) (d : Slots 32) (more rest : List Byte), more.length ≤ 21 →
    s.rx = frameBytes 0x10#8 (slotBytes32 d ++ more) ++ rest →
    ∃ t, exec (.frame (BitVec.ofNat 8 (more.length + 26))) s = .next t ∧
      (∀ k : Slot, (t.e.get k).toNat = ((s.e.get k).toNat + (d.get k).toNat) % 2 ^ 64) ∧
      (∀ k : Slot, (s.e.get k).toNat + (d.get k).toNat < 2 ^ 64 →
        (t.e.get k).toNat = (s.e.get k).toNat + (d.get k).toNat) ∧
      t.rx = rest ∧ t.pos = s.pos + more.length + 28 ∧
      t.sink = s.sink ++ slotEvents .ene 11 10000 s.bind t.e ∧
      t.diag = s.diag ++ [⟨.summary, .info, .record (.energyDelta d)⟩] ∧
      t.v = s.v ∧ t.i = s.i ∧ t.p = s.p ∧ t.bind = s.bind ∧ t.run = s.run

/-- A valid frame of a recognised type completes however short it is, and its record is applied as usual: the decoder
reads byte `a` of the frame at every offset `a` up to `L + 1`, the checksum byte and the EOF byte among them, and any
byte beyond (41_message_decode.md section 3, the spec's own decision; the wrap of a total is notes/assumptions/17.md).
The two examples there: `02 0D 0D C0` is the voltage 3520; and for a Current frame with one field byte, slot 0 is made
of that byte and the checksum byte, and the high byte of slot 1 is `0xC0`. -/
def Obligations.ShortFramesReadTrailer : Prop :=
  (∀ (s : State) (L T : Byte) (frame rest : List Byte), isFrame frame = true → frame[0]? = some L →
    frame[1]? = some T → recognisedType T = true → s.rx = frame ++ rest →
    ∃ t cell, exec (.frame L) s = .next t ∧ (∀ a b, frame[a]? = some b → cell a = b) ∧
      cell L.toNat = sum8 ((frame.take L.toNat).drop 1) ∧ cell (L.toNat + 1) = 0xC0#8 ∧
      t.rx = rest ∧ t.pos = s.pos + L.toNat + 2 ∧ t.bind = s.bind ∧ t.run = s.run ∧
      (T = 0x0D#8 → t.v.toNat = big16 cell 2 ∧ t.i = s.i ∧ t.p = s.p ∧ t.e = s.e ∧
        t.sink = s.sink ++ (if s.bind.getLsbD 0 then [⟨.volt, t.v.toNat, 100⟩] else []) ∧
        t.diag = s.diag ++ [⟨.summary, .info, .record (.voltage t.v)⟩]) ∧
      (T = 0x0E#8 → (∀ k : Slot, (t.i.get k).toNat = big16 cell (2 + 2 * k.val)) ∧
        t.v = s.v ∧ t.p = s.p ∧ t.e = s.e ∧ t.sink = s.sink ++ slotEvents .cur 1 100 s.bind t.i ∧
        t.diag = s.diag ++ [⟨.summary, .info, .record (.current t.i)⟩]) ∧
      (T = 0x0F#8 → (∀ k : Slot, (t.p.get k).toNat = big32 cell (2 + 4 * k.val)) ∧
        t.v = s.v ∧ t.i = s.i ∧ t.e = s.e ∧ t.sink = s.sink ++ slotEvents .pow 6 1 s.bind t.p ∧
        t.diag = s.diag ++ [⟨.summary, .info, .record (.power t.p)⟩]) ∧
      (T = 0x10#8 → ∃ d, (∀ k : Slot, (d.get k).toNat = big32 cell (2 + 4 * k.val)) ∧
        (∀ k : Slot, (t.e.get k).toNat = ((s.e.get k).toNat + (d.get k).toNat) % 2 ^ 64) ∧
        t.v = s.v ∧ t.i = s.i ∧ t.p = s.p ∧ t.sink = s.sink ++ slotEvents .ene 11 10000 s.bind t.e ∧
        t.diag = s.diag ++ [⟨.summary, .info, .record (.energyDelta d)⟩])) ∧
  (∀ (s : State) (rest : List Byte), s.rx = [0x02#8, 0x0D#8, 0x0D#8, 0xC0#8] ++ rest →
    ∃ t, exec (.frame 0x02#8) s = .next t ∧ t.v = 0x0DC0#16 ∧ t.rx = rest) ∧
  (∀ (s : State) (f : Byte) (rest : List Byte), s.rx = frameBytes 0x0E#8 [f] ++ rest →
    ∃ t, exec (.frame 0x03#8) s = .next t ∧ t.i.get 0 = f ++ (0x0E#8 + f) ∧
      (t.i.get 1).extractLsb' 8 8 = 0xC0#8 ∧ t.rx = rest)

/-! ### The agents and the step -/

/-- A step runs the decoded instruction: in the PARSER's turn with an invocation in progress and a byte buffered, the
step is `exec` of what the head byte decodes to, on the same state but for the turn taken from the schedule
(40_stream_ops.md section 1). -/
def Obligations.StepRunsDecodedOperation : Prop :=
  ∀ (s : State) (i : Instr) (rest : List Byte), s.run = .running → decode .len s.rx = .ok (i, rest) →
    (s.sched = [] → step s = exec i s) ∧
    (∀ moves, s.sched = .parser :: moves → step s = exec i { s with sched := moves })

/-- IDLE (40_stream_ops.md R71): with no byte available the invocation returns and only `run` changes; a byte appended
after it is seen by the next invocation; a tick with nothing buffered returns at once. -/
def Obligations.IdleReturns : Prop :=
  (∀ s : State, s.run = .running → s.rx = [] → s.sched = [] → step s = .next { s with run := .halted }) ∧
  (∀ (s : State) (b : Byte) (moves : List Move), s.run = .running → s.rx = [] →
    s.sched = .parser :: .append b :: .tick :: moves →
    runFor 3 s = .next { s with rx := [b], sched := moves }) ∧
  (∀ (s : State) (moves : List Move), s.run = .halted → s.rx = [] → s.sched = .tick :: .parser :: moves →
    runFor 2 s = .next { s with sched := moves })

/-- Ticks, `BIND` writes and resets while HALTED: a tick starts an invocation and changes nothing else; a write sets all
16 bits of `BIND` and nothing else; a reset gives `E`, `BIND`, `run`, `pos`, `rx` and the traces their reset values
and leaves no cell specified (40_stream_ops.md section 1, 10_state.md section 6, 70_reset_and_hazards.md section 1: the
spec's own decisions). That the schedule goes on is the model's choice, notes/assumptions/9.md. -/
def Obligations.HostMovesWhileHalted : Prop :=
  ∀ (s : State) (moves : List Move), s.run = .halted →
    (s.sched = .tick :: moves → step s = .next { s with run := .running, sched := moves }) ∧
    (∀ value, s.sched = .writeBind value :: moves → step s = .next { s with bind := value, sched := moves }) ∧
    (s.sched = .reset :: moves → ∃ t, step s = .next t ∧ (∀ k, t.e.get k = 0#64) ∧ t.bind = 0#16 ∧
      t.run = .halted ∧ t.pos = 0 ∧ t.rx = [] ∧ t.sink = [] ∧ t.diag = [] ∧ NoCells t ∧ t.sched = moves)

/-- Ticks, `BIND` writes and resets are no moves while RUNNING: each is refused by its own name (the spec's own
decisions, 93_implementation_defined.md U8, U9, U11; notes/assumptions/8.md). -/
def Obligations.HostMovesRefusedWhileRunning : Prop :=
  ∀ (s : State) (moves : List Move), s.run = .running →
    (s.sched = .tick :: moves → step s = .refused .tickWhileRunning) ∧
    (∀ value, s.sched = .writeBind value :: moves → step s = .refused .bindWhileRunning) ∧
    (s.sched = .reset :: moves → step s = .refused .resetWhileRunning)

/-- An append of the PRODUCER, at any moment, puts one byte at the tail of `rx` and changes nothing else
(20_memory.md section 2, the spec's own decision). -/
def Obligations.ProducerAppends : Prop :=
  ∀ (s : State) (b : Byte) (moves : List Move), s.sched = .append b :: moves →
    step s = .next { s with rx := s.rx ++ [b], sched := moves }

/-- After reset the state is as the spec's table gives it, where it gives a value: `E`, `BIND`, `run`, `pos`, `rx`, the
two traces, and no specified cell; and the block does nothing until a tick (10_state.md section 12,
70_reset_and_hazards.md section 1, the spec's own decision). Nothing is said of `V`, `I`, `P` and `L`, which are
unspecified there. -/
def Obligations.ResetState : Prop :=
  (∀ k, State.reset.e.get k = 0#64) ∧ State.reset.bind = 0#16 ∧ State.reset.run = .halted ∧ State.reset.pos = 0 ∧
  State.reset.rx = [] ∧ State.reset.sink = [] ∧ State.reset.diag = [] ∧ NoCells State.reset ∧
  step State.reset = .next State.reset

/-- The codes of the causes and the numbers of the severities (60_exceptions.md sections 1 and 2, the spec's own
decision), and the bits of `BIND` (10_state.md section 6, the spec's own decision). -/
def Obligations.CodesAndBindBits : Prop :=
  [Cause.summary, .noiseByte, .badEof, .badChecksum, .unknownType, .starvation].map Cause.code = [0, 1, 2, 3, 4, 5] ∧
  [Severity.debug, .info, .warning].map Severity.code = [0, 1, 2] ∧
  SinkId.bit .volt = 0 ∧
  (∀ c : SubChannel, SinkId.bit (.cur c) = 1 + c.val ∧ SinkId.bit (.pow c) = 6 + c.val ∧
    SinkId.bit (.ene c) = 11 + c.val)

/-! ### Rules of the whole machine, over every state -/

/-- The PARSER and the PRODUCER never stop, and the HOST's moves stop only while RUNNING: every error is recovered
locally (60_exceptions.md section 4, 93_implementation_defined.md section 1). -/
def Obligations.OnlyMisplacedHostMovesStop : Prop :=
  ∀ s : State,
    (∃ t, step s = .next t) ∨
    (s.run = .running ∧ ∃ m moves, s.sched = m :: moves ∧ hostMove m = true)

/-- Every step keeps the invariant: between operations the buffer is discarded, and the traces hold only events that
the rules emit: no STARVATION event, no dropped filler byte reported, no dump of a frame that its cause does not fit,
no denominator but the sink's (10_state.md section 7, 60_exceptions.md sections 1 and 2, 42_apply_publish.md
section 1). -/
def Obligations.EveryStepKeepsInvariant : Prop :=
  ∀ s t : State, Invariant s → step s = .next t → Invariant t

/-- The invariant holds at reset. -/
def Obligations.ResetHasInvariant : Prop :=
  Invariant State.reset

/-- Every operation keeps the frame buffer canonical, cells in rising order and inside the 49 (10_state.md section 7,
20_memory.md section 1; the canonical form is the model's, notes/assumptions/3.md). -/
def Obligations.EveryOperationKeepsBufferCanonical : Prop :=
  ∀ (i : Instr) (s t : State), s.fb.wf = true → exec i s = .next t → t.fb.wf = true

/-- Who writes the measurement registers: but for a reset, `V` changes only in a step that accepts a frame of type
`0x0D`, `I` of type `0x0E`, `P` of type `0x0F`, `E` of type `0x10`; and `BIND` only by the HOST's write
(10_state.md sections 2, 3 and 6, derived in the spec). -/
def Obligations.OnlyTheirFramesWriteRegisters : Prop :=
  ∀ s t : State, step s = .next t → s.sched.head? ≠ some .reset →
    (t.v ≠ s.v → acceptedType s = some 0x0D#8) ∧
    (t.i ≠ s.i → acceptedType s = some 0x0E#8) ∧
    (t.p ≠ s.p → acceptedType s = some 0x0F#8) ∧
    (t.e ≠ s.e → acceptedType s = some 0x10#8) ∧
    (t.bind ≠ s.bind → ∃ value, s.sched.head? = some (.writeBind value))

/-- Nothing but reset ever clears `E` (70_reset_and_hazards.md R147): over any run whose schedule holds no reset, a
total that cannot reach 2^64 in that many steps never decreases, whatever is received, rejected or bound. -/
def Obligations.NothingButResetClearsEnergy : Prop :=
  ∀ (n : Nat) (s t : State) (k : Slot), Move.reset ∉ s.sched → runFor n s = .next t →
    (s.e.get k).toNat + n * 2 ^ 32 ≤ 2 ^ 64 → (s.e.get k).toNat ≤ (t.e.get k).toNat

/-- Causes (60_exceptions.md R128): a step only adds to DIAG, but for a reset; if it reports a cause that is not SUMMARY
then every event it adds has that cause, the measurement registers, `E`, `BIND` and SINK are untouched, the bytes
consumed stay consumed and the PARSER is at S1 again; and a starved frame returns with nothing changed but `run`, the latch and the turn. -/
def Obligations.CausesLeaveRegistersAlone : Prop :=
  ∀ s t : State, step s = .next t → s.sched.head? ≠ some .reset →
    (∃ new, t.diag = s.diag ++ new ∧
      ∀ d ∈ new, d.cause ≠ .summary →
        (∀ d' ∈ new, d'.cause = d.cause) ∧ SameRegisters s t ∧ t.sink = s.sink ∧ t.run = .running ∧
          s.pos < t.pos ∧ t.rx = s.rx.drop (t.pos - s.pos)) ∧
    (parserTurn s = true → s.rx ≠ [] → awaitsBytes s.rx = true →
      t = { s with run := .halted, len := t.len, sched := s.sched.tail })

/-- The cursor and the stream: over any run whose schedule so far holds no reset, the bytes that were buffered and the
bytes appended since are exactly the bytes consumed, which `pos` counts, followed by the bytes still buffered: nothing
is lost, reordered, duplicated or read again (10_state.md sections 4 and 8, 20_memory.md section 8, 40_stream_ops.md
section 4). -/
def Obligations.CursorCountsConsumedBytes : Prop :=
  ∀ (n : Nat) (s t : State), Move.reset ∉ s.sched.take n → runFor n s = .next t →
    ∃ consumed, s.rx ++ appended (s.sched.take n) = consumed ++ t.rx ∧ t.pos = s.pos + consumed.length

/-- The cursor and control effect of every operation of the PARSER (40_stream_ops.md section 4, derived in the spec):
which operations return, how many bytes each consumes, never more than 49. -/
def Obligations.CursorAndControlTable : Prop :=
  ∀ s t : State, s.run = .running → s.sched = [] → step s = .next t →
    (s.rx = [] → t.run = .halted ∧ t.pos = s.pos) ∧
    (∀ L rest, s.rx = L :: rest →
      (legalLength L = false → t.run = .running ∧ t.pos = s.pos + 1 ∧ t.rx = rest) ∧
      (legalLength L = true → s.rx.length < L.toNat + 2 → t.run = .halted ∧ t.pos = s.pos ∧ t.rx = s.rx) ∧
      (legalLength L = true → L.toNat + 2 ≤ s.rx.length →
        t.run = .running ∧ t.pos = s.pos + L.toNat + 2 ∧ t.rx = s.rx.drop (L.toNat + 2) ∧ t.pos ≤ s.pos + 49))

/-- An invocation starts only on a tick and ends only in IDLE or a starved FRAME (10_state.md section 4, the spec's own
decision; 40_stream_ops.md section 4). -/
def Obligations.InvocationsStartAndEnd : Prop :=
  ∀ s t : State, step s = .next t →
    (s.run = .halted → t.run = .running → s.sched.head? = some .tick) ∧
    (s.run = .running → t.run = .halted → parserTurn s = true ∧ awaitsBytes s.rx = true)

/-- An unbound sink is not an error (42_apply_publish.md R112): with `BIND = 0` a run adds nothing to SINK, and the run
from the same state under any other `BIND` (and any other SINK trace) does the same in every other field. -/
def Obligations.BindOnlyAffectsSink : Prop :=
  ∀ (n : Nat) (s t : State), steadyHost s → runFor n s = .next t →
    (s.bind = 0#16 → t.sink = s.sink) ∧
    (∀ (bind : BitVec 16) (sink : List Publish), ∃ u, runFor n { s with bind := bind, sink := sink } = .next u ∧
      u = { t with bind := bind, sink := u.sink })

/-- Published values (42_apply_publish.md sections 1 and 3, the spec's own decisions): every event that a step adds to
SINK goes to a sink whose bit of `BIND` is set, carries the register just written, and its exact value is that register
over 100, 1 or 10000; no sink carries slot 0; and the sinks of one step are in ascending order, each at most once. -/
def Obligations.PublishedValuesAreRegisters : Prop :=
  ∀ s t : State, step s = .next t → s.sched.head? ≠ some .reset →
    ∃ new, t.sink = s.sink ++ new ∧
      (∀ ev ∈ new, s.bind.getLsbD ev.sink.bit = true ∧ ev.num = sinkRegister t ev.sink ∧
        ev.value = (sinkRegister t ev.sink : ℚ) / (ev.sink.den : ℚ)) ∧
      (new.map fun ev => ev.sink.bit).Pairwise (· < ·)

/-! ### Runs, schedules and the reference function -/

/-- Every invocation terminates if the PRODUCER appends only finitely many bytes while it runs (40_stream_ops.md
section 4, 70_reset_and_hazards.md section 3, derived in the spec): one that nobody interrupts, within one step per
buffered byte and one more; and one under any endless schedule whose appends end, in a state that awaits bytes. -/
def Obligations.InvocationTerminates : Prop :=
  (∀ s : State, s.run = .running → s.sched = [] →
    ∃ n t, n ≤ s.rx.length + 1 ∧ runFor n s = .next t ∧ t.run = .halted ∧ awaitsBytes t.rx = true) ∧
  (∀ (env : Schedule) (s : State), s.run = .running → Schedule.admissible env s → Schedule.appendsEnd env →
    ∃ n t, runUnder env n s = .next t ∧ t.run = .halted ∧ awaitsBytes t.rx = true)

/-- The PARSER refines the reference function (40_stream_ops.md section 6, derived in the spec): an invocation that
nobody interrupts does what the outcomes of `Parse` do, in order, and leaves its remainder. The length latch, which
means nothing between operations, is left out. -/
def Obligations.ParserRefinesParse : Prop :=
  ∀ s : State, s.run = .running → s.sched = [] →
    ∃ n t, runFor n s = .next t ∧ t.rx = (parse s.rx).2 ∧
      AgreeButLatch { effects (parse s.rx).1 s with run := .halted } t

/-- Schedule independence (70_reset_and_hazards.md section 3, derived in the spec): two schedules of ticks, PARSER turns
and appends that deliver the same bytes, each run to its end and finished, leave the same registers, accumulators,
cursor, stream and traces. -/
def Obligations.ScheduleIndependence : Prop :=
  ∀ (s t₁ t₂ : State) (one two : List Move),
    (∀ m ∈ one, rewires m = false) → (∀ m ∈ two, rewires m = false) → appended one = appended two →
    runFor one.length { s with sched := one } = .next t₁ → runFor two.length { s with sched := two } = .next t₂ →
    finished t₁ = true → finished t₂ = true → AgreeButLatch t₁ t₂

/-- Exact extraction on clean streams (70_reset_and_hazards.md section 4, derived in the spec): if the buffered bytes
are filler bytes and well-formed frames, an invocation accepts exactly those frames, in order, consumes every byte, and
adds only SUMMARY and UNKNOWN_TYPE events to DIAG, one for each frame. -/
def Obligations.CleanStreamsExtractedExactly : Prop :=
  ∀ (s : State) (items : List Item), Item.clean items = true → s.run = .running → s.sched = [] →
    s.rx = items.flatMap Item.bytes →
    validFrames (parse s.rx).1 = Item.frames items ∧
    ∃ n t new, runFor n s = .next t ∧ t.run = .halted ∧ t.rx = [] ∧ t.pos = s.pos + s.rx.length ∧
      AgreeButLatch { effects (parse s.rx).1 s with run := .halted } t ∧
      t.diag = s.diag ++ new ∧ new.length = (Item.frames items).length ∧
      ∀ d ∈ new, d.cause = .summary ∨ d.cause = .unknownType

/-- A stall has no timeout (70_reset_and_hazards.md section 4, derived in the spec; 60_exceptions.md section 7): while no
byte arrives, any number of invocations on an incomplete frame changes nothing but the length latch. -/
def Obligations.StallChangesNothing : Prop :=
  ∀ (n : Nat) (s : State), s.run = .halted → awaitsBytes s.rx = true →
    ∃ t, runFor (2 * n) { s with sched := (List.replicate n [Move.tick, Move.parser]).flatten } = .next t ∧
      AgreeButLatch { s with sched := [] } t

/-- False length capture (70_reset_and_hazards.md section 4, derived in the spec): a stray byte `L` of 1 to 47 before a
good frame takes the next `L + 1` bytes, the frame's length byte first among them, into its own candidate. With too few
bytes it waits; otherwise the bytes are consumed whole, and unless the candidate happens to be a frame itself no
register is written. A stray byte one more than the good frame's length byte makes a candidate that ends where the
frame ends and whose sum is off by that length byte: it is always rejected and the whole frame is lost with it, as `05`
before a Voltage frame. -/
def Obligations.FalseLengthSwallowsFrame : Prop :=
  (∀ (s : State) (L : Byte) (frame rest : List Byte), isFrame frame = true → 1 ≤ L.toNat → L.toNat ≤ 47 →
    s.rx = L :: (frame ++ rest) →
    (frame.length + rest.length < L.toNat + 1 →
      ∃ t, exec (.frame L) s = .next t ∧ t.run = .halted ∧ t.rx = s.rx ∧ t.pos = s.pos ∧ SameRegisters s t ∧
        t.sink = s.sink ∧ t.diag = s.diag) ∧
    (L.toNat + 1 ≤ frame.length + rest.length →
      ∃ t, exec (.frame L) s = .next t ∧ t.run = s.run ∧ t.rx = (frame ++ rest).drop (L.toNat + 1) ∧
        t.pos = s.pos + L.toNat + 2 ∧
        (isFrame (L :: (frame ++ rest).take (L.toNat + 1)) = false → SameRegisters s t ∧ t.sink = s.sink))) ∧
  (∀ (s : State) (L len : Byte) (frame rest : List Byte), isFrame frame = true → frame[0]? = some len →
    L.toNat = len.toNat + 1 → L.toNat ≤ 47 → s.rx = L :: (frame ++ rest) →
    ∃ t, exec (.frame L) s = .next t ∧ t.rx = rest ∧ t.pos = s.pos + L.toNat + 2 ∧ SameRegisters s t ∧
      t.sink = s.sink ∧
      t.diag = s.diag ++ [⟨.badChecksum, .warning, .bytes []⟩, ⟨.badChecksum, .debug, .bytes (L :: frame)⟩]) ∧
  (∀ (s : State) (raw : BitVec 16) (rest : List Byte), s.rx = 0x05#8 :: (voltBytes raw ++ rest) →
    ∃ t, exec (.frame 0x05#8) s = .next t ∧ t.rx = rest ∧ t.pos = s.pos + 7 ∧ t.v = s.v ∧
      t.diag = s.diag ++
        [⟨.badChecksum, .warning, .bytes []⟩, ⟨.badChecksum, .debug, .bytes (0x05#8 :: voltBytes raw)⟩])

/-! ### Beside the statements above -/

/-- The length latch (10_state.md section 7, derived in the spec): a stream-level operation leaves its head byte in it
and a message-level operation leaves it alone; of the steps, only the PARSER's turn on a buffered byte writes it, but for
a reset. That the latch keeps its value after the operation, where the spec says it means nothing, is the model's
choice, notes/assumptions/2.md. -/
def Obligations.LatchHoldsHeadByte : Prop :=
  (∀ (i : Instr) (s t : State), exec i s = .next t →
    (i.format = .len → t.len = selector i) ∧ (i.format = .msg → t.len = s.len)) ∧
  (∀ s t : State, step s = .next t → s.sched.head? ≠ some .reset →
    (∀ b rest, parserTurn s = true → s.rx = b :: rest → t.len = b) ∧
    (parserTurn s = false ∨ s.rx = [] → t.len = s.len))

/-- MSG_ENERGY (41_message_decode.md R94), for every frame buffer: each delta is the 32-bit field at offset `2 + 4k`, and
the record is applied: where `E[k] + d[k]` is below 2^64 the new total is exactly that sum, so `d[k] = 0` leaves `E[k]`
unchanged; the bound slots 1 to 5 are published all the same. Nothing is said of a total that would pass 2^64. -/
def Obligations.MsgEnergyExactResult : Prop :=
  ∀ s : State, ∃ t cell d, exec .msgEnergy s = .next t ∧ Reads s.fb cell ∧
    (∀ k : Slot, (d.get k).toNat = big32 cell (2 + 4 * k.val)) ∧
    (∀ k : Slot, (s.e.get k).toNat + (d.get k).toNat < 2 ^ 64 →
      (t.e.get k).toNat = (s.e.get k).toNat + (d.get k).toNat) ∧
    (∀ k : Slot, d.get k = 0#32 → t.e.get k = s.e.get k) ∧
    t.sink = s.sink ++ slotEvents .ene 11 10000 s.bind t.e ∧
    t.diag = s.diag ++ [⟨.summary, .info, .record (.energyDelta d)⟩] ∧
    t.v = s.v ∧ t.i = s.i ∧ t.p = s.p ∧ t.bind = s.bind ∧ SameStream s t ∧ SameCells s t

/-- An invocation has no bound but the bytes available (70_reset_and_hazards.md section 3, derived in the spec). Under an
endless schedule in which a complete operation can be made at every turn of the PARSER it never returns; and such
schedules exist: with one append before each turn of the PARSER, of bytes that are dropped, the invocation is still in
progress after any number of turns and every byte appended has been consumed. -/
def Obligations.EndlessAppendsNeverReturn : Prop :=
  (∀ (env : Schedule) (s : State), s.run = .running → (∀ n, hostMove (env n) = false) →
    (∀ n t, runUnder env n s = .next t → env n = .parser → awaitsBytes t.rx = false) →
    ∀ n, ∃ t, runUnder env n s = .next t ∧ t.run = .running) ∧
  (∀ (byte : Nat → Byte) (s : State), s.run = .running → s.rx = [] → (∀ k, legalLength (byte k) = false) →
    ∀ k, ∃ t, runUnder (feeding byte) (2 * k) s = .next t ∧ t.run = .running ∧ t.rx = [] ∧ t.pos = s.pos + k)

/-- Liveness (70_reset_and_hazards.md section 3, the spec's own decision): under every endless schedule in which the HOST
ticks again after every return, with no bound on the delay, every byte received so far is eventually examined: all the
operations that the bytes buffered at any moment complete are performed. That the PARSER gets turn after turn is a
premise the spec does not state (notes/assumptions/21.md); a reset would discard the bytes, so the schedule holds
none. -/
def Obligations.TicksAgainExamineEveryByte : Prop :=
  ∀ (env : Schedule) (s t : State) (n : Nat), Schedule.admissible env s → Schedule.hostTicksAgain env s →
    Schedule.parserGoesOn env → (∀ k, env k ≠ .reset) → runUnder env n s = .next t →
    ∃ m u, n ≤ m ∧ runUnder env m s = .next u ∧ t.pos + ((parse t.rx).1.map Parsed.size).sum ≤ u.pos
end

