-- ==== Sys2Proof/Laws/Decode.lean ====
section
/-! SUPPORT. The decoder's classes, the encoder, and the two tables. -/

namespace Sys2Proof

theorem decodeLen_zero : decodeLen 0x00#8 = .dropZero := rfl

theorem decodeLen_filler : decodeLen Config.busyByte = .dropFiller := rfl

theorem decodeLen_overlen {b : Byte} (h : overlenByte b = true) : decodeLen b = .dropOverlen b := by
  simp only [overlenByte, Bool.and_eq_true, decide_eq_true_eq, bne_iff_ne] at h
  have h0 : b ≠ 0x00#8 := by
    rintro rfl
    exact absurd h.1 (by decide)
  simp [decodeLen, h0, h.1, h.2]

theorem decodeLen_frame {b : Byte} (h : legalLength b = true) : decodeLen b = .frame b := by
  simp only [legalLength, Bool.and_eq_true, decide_eq_true_eq] at h
  have h0 : b ≠ 0x00#8 := by
    rintro rfl
    exact absurd h.1 (by decide)
  have h1 : b ≠ Config.busyByte := by
    rintro rfl
    exact absurd h.2 (by decide)
  simp [decodeLen, h0, h1, Nat.not_le.mpr h.2]

/-- Every head byte is in exactly one of the four classes of 30_encoding.md R51; these are all. -/
theorem headByte_cases (b : Byte) :
    b = 0x00#8 ∨ b = Config.busyByte ∨ overlenByte b = true ∨ legalLength b = true := by
  by_cases h0 : b = 0x00#8
  · exact .inl h0
  by_cases h1 : b = Config.busyByte
  · exact .inr (.inl h1)
  by_cases h2 : Config.maxMsgLength ≤ b.toNat
  · exact .inr (.inr (.inl (by simp [overlenByte, h1, h2])))
  · refine .inr (.inr (.inr ?_))
    have : 0 < b.toNat := by
      rcases Nat.eq_zero_or_pos b.toNat with h | h
      · exact absurd (BitVec.eq_of_toNat_eq (by simpa using h)) h0
      · exact h
    simp [legalLength, this, Nat.lt_of_not_le h2]

theorem legalLength_bounds {b : Byte} (h : legalLength b = true) : 1 ≤ b.toNat ∧ b.toNat ≤ 47 := by
  simp only [legalLength, Bool.and_eq_true, decide_eq_true_eq] at h
  have hm : Config.maxMsgLength = 48 := rfl
  omega

theorem decodeMsg_unknown {t : Byte} (h : recognisedType t = false) : decodeMsg t = .msgUnknown t := by
  simp only [recognisedType, Bool.or_eq_false_iff, beq_eq_false_iff_ne] at h
  simp [decodeMsg, h]

/-- Every type byte is one of the four codes or is not recognised (30_encoding.md R57). -/
theorem typeByte_cases (t : Byte) :
    t = Config.tVoltage ∨ t = Config.tCurrent ∨ t = Config.tPower ∨ t = Config.tEnergy ∨ recognisedType t = false := by
  by_cases h : recognisedType t = true
  · simp only [recognisedType, Bool.or_eq_true, beq_iff_eq] at h
    tauto
  · exact .inr (.inr (.inr (.inr (by simpa using h))))

@[simp] theorem decode_nil (f : Format) : decode f [] = .error .noByte := rfl

@[simp] theorem decode_cons (f : Format) (b : Byte) (rest : List Byte) :
    decode f (b :: rest) = .ok (decodeByte f b, rest) := rfl

@[simp] theorem encode_length (i : Instr) : (encode i).length = 1 := rfl

/-- Every byte matches exactly one row of format LEN (30_encoding.md R68). -/
theorem lenRows_partition : ∀ b : Byte, (lenRows.filter (·.matches b)).length = 1 := by decide

/-- Every byte matches exactly one row of format MSG (30_encoding.md R68). -/
theorem msgRows_partition : ∀ b : Byte, (msgRows.filter (·.matches b)).length = 1 := by decide

@[simp] theorem sum8_nil : sum8 [] = 0#8 := rfl

@[simp] theorem sum8_cons (b : Byte) (rest : List Byte) : sum8 (b :: rest) = b + sum8 rest := rfl

theorem sum8_append (a b : List Byte) : sum8 (a ++ b) = sum8 a + sum8 b := by
  induction a with
  | nil => simp
  | cons x xs ih => simp [ih, BitVec.add_assoc]

@[simp] theorem be16_length (v : BitVec 16) : (be16 v).length = 2 := rfl

@[simp] theorem be32_length (v : BitVec 32) : (be32 v).length = 4 := rfl

theorem frameBytes_length (t : Byte) (fields : List Byte) : (frameBytes t fields).length = fields.length + 4 := by
  simp [frameBytes]

end Sys2Proof
end

