-- ==== Sys2Proof/Laws/State.lean ====
section
/-! SUPPORT. What each update of the state leaves in each field: one lemma per field per update. -/

namespace Sys2Proof.Machine

@[simp] theorem consume_v (n : Nat) (s : State) : (consume n s).v = s.v := rfl
@[simp] theorem consume_i (n : Nat) (s : State) : (consume n s).i = s.i := rfl
@[simp] theorem consume_p (n : Nat) (s : State) : (consume n s).p = s.p := rfl
@[simp] theorem consume_e (n : Nat) (s : State) : (consume n s).e = s.e := rfl
@[simp] theorem consume_bind (n : Nat) (s : State) : (consume n s).bind = s.bind := rfl
@[simp] theorem consume_run (n : Nat) (s : State) : (consume n s).run = s.run := rfl
@[simp] theorem consume_pos (n : Nat) (s : State) : (consume n s).pos = s.pos + n := rfl
@[simp] theorem consume_fb (n : Nat) (s : State) : (consume n s).fb = s.fb := rfl
@[simp] theorem consume_len (n : Nat) (s : State) : (consume n s).len = s.len := rfl
@[simp] theorem consume_rx (n : Nat) (s : State) : (consume n s).rx = s.rx.drop n := rfl
@[simp] theorem consume_sink (n : Nat) (s : State) : (consume n s).sink = s.sink := rfl
@[simp] theorem consume_diag (n : Nat) (s : State) : (consume n s).diag = s.diag := rfl
@[simp] theorem consume_draws (n : Nat) (s : State) : (consume n s).draws = s.draws := rfl
@[simp] theorem consume_sched (n : Nat) (s : State) : (consume n s).sched = s.sched := rfl

@[simp] theorem loadFrame_v (b : List Byte) (s : State) : (loadFrame b s).v = s.v := rfl
@[simp] theorem loadFrame_i (b : List Byte) (s : State) : (loadFrame b s).i = s.i := rfl
@[simp] theorem loadFrame_p (b : List Byte) (s : State) : (loadFrame b s).p = s.p := rfl
@[simp] theorem loadFrame_e (b : List Byte) (s : State) : (loadFrame b s).e = s.e := rfl
@[simp] theorem loadFrame_bind (b : List Byte) (s : State) : (loadFrame b s).bind = s.bind := rfl
@[simp] theorem loadFrame_run (b : List Byte) (s : State) : (loadFrame b s).run = s.run := rfl
@[simp] theorem loadFrame_pos (b : List Byte) (s : State) : (loadFrame b s).pos = s.pos := rfl
@[simp] theorem loadFrame_fb (b : List Byte) (s : State) : (loadFrame b s).fb = Memory.ofBytes 0 b := rfl
@[simp] theorem loadFrame_len (b : List Byte) (s : State) : (loadFrame b s).len = s.len := rfl
@[simp] theorem loadFrame_rx (b : List Byte) (s : State) : (loadFrame b s).rx = s.rx := rfl
@[simp] theorem loadFrame_sink (b : List Byte) (s : State) : (loadFrame b s).sink = s.sink := rfl
@[simp] theorem loadFrame_diag (b : List Byte) (s : State) : (loadFrame b s).diag = s.diag := rfl
@[simp] theorem loadFrame_draws (b : List Byte) (s : State) : (loadFrame b s).draws = s.draws := rfl
@[simp] theorem loadFrame_sched (b : List Byte) (s : State) : (loadFrame b s).sched = s.sched := rfl

@[simp] theorem discardFrame_v (s : State) : (discardFrame s).v = s.v := rfl
@[simp] theorem discardFrame_i (s : State) : (discardFrame s).i = s.i := rfl
@[simp] theorem discardFrame_p (s : State) : (discardFrame s).p = s.p := rfl
@[simp] theorem discardFrame_e (s : State) : (discardFrame s).e = s.e := rfl
@[simp] theorem discardFrame_bind (s : State) : (discardFrame s).bind = s.bind := rfl
@[simp] theorem discardFrame_run (s : State) : (discardFrame s).run = s.run := rfl
@[simp] theorem discardFrame_pos (s : State) : (discardFrame s).pos = s.pos := rfl
@[simp] theorem discardFrame_fb (s : State) : (discardFrame s).fb = [] := rfl
@[simp] theorem discardFrame_len (s : State) : (discardFrame s).len = s.len := rfl
@[simp] theorem discardFrame_rx (s : State) : (discardFrame s).rx = s.rx := rfl
@[simp] theorem discardFrame_sink (s : State) : (discardFrame s).sink = s.sink := rfl
@[simp] theorem discardFrame_diag (s : State) : (discardFrame s).diag = s.diag := rfl
@[simp] theorem discardFrame_draws (s : State) : (discardFrame s).draws = s.draws := rfl
@[simp] theorem discardFrame_sched (s : State) : (discardFrame s).sched = s.sched := rfl

@[simp] theorem latch_v (b : Byte) (s : State) : (latch b s).v = s.v := rfl
@[simp] theorem latch_i (b : Byte) (s : State) : (latch b s).i = s.i := rfl
@[simp] theorem latch_p (b : Byte) (s : State) : (latch b s).p = s.p := rfl
@[simp] theorem latch_e (b : Byte) (s : State) : (latch b s).e = s.e := rfl
@[simp] theorem latch_bind (b : Byte) (s : State) : (latch b s).bind = s.bind := rfl
@[simp] theorem latch_run (b : Byte) (s : State) : (latch b s).run = s.run := rfl
@[simp] theorem latch_pos (b : Byte) (s : State) : (latch b s).pos = s.pos := rfl
@[simp] theorem latch_fb (b : Byte) (s : State) : (latch b s).fb = s.fb := rfl
@[simp] theorem latch_len (b : Byte) (s : State) : (latch b s).len = b := rfl
@[simp] theorem latch_rx (b : Byte) (s : State) : (latch b s).rx = s.rx := rfl
@[simp] theorem latch_sink (b : Byte) (s : State) : (latch b s).sink = s.sink := rfl
@[simp] theorem latch_diag (b : Byte) (s : State) : (latch b s).diag = s.diag := rfl
@[simp] theorem latch_draws (b : Byte) (s : State) : (latch b s).draws = s.draws := rfl
@[simp] theorem latch_sched (b : Byte) (s : State) : (latch b s).sched = s.sched := rfl

@[simp] theorem halt_v (s : State) : (halt s).v = s.v := rfl
@[simp] theorem halt_i (s : State) : (halt s).i = s.i := rfl
@[simp] theorem halt_p (s : State) : (halt s).p = s.p := rfl
@[simp] theorem halt_e (s : State) : (halt s).e = s.e := rfl
@[simp] theorem halt_bind (s : State) : (halt s).bind = s.bind := rfl
@[simp] theorem halt_run (s : State) : (halt s).run = .halted := rfl
@[simp] theorem halt_pos (s : State) : (halt s).pos = s.pos := rfl
@[simp] theorem halt_fb (s : State) : (halt s).fb = s.fb := rfl
@[simp] theorem halt_len (s : State) : (halt s).len = s.len := rfl
@[simp] theorem halt_rx (s : State) : (halt s).rx = s.rx := rfl
@[simp] theorem halt_sink (s : State) : (halt s).sink = s.sink := rfl
@[simp] theorem halt_diag (s : State) : (halt s).diag = s.diag := rfl
@[simp] theorem halt_draws (s : State) : (halt s).draws = s.draws := rfl
@[simp] theorem halt_sched (s : State) : (halt s).sched = s.sched := rfl

@[simp] theorem emitDiag_v (d : List Diag) (s : State) : (emitDiag d s).v = s.v := rfl
@[simp] theorem emitDiag_i (d : List Diag) (s : State) : (emitDiag d s).i = s.i := rfl
@[simp] theorem emitDiag_p (d : List Diag) (s : State) : (emitDiag d s).p = s.p := rfl
@[simp] theorem emitDiag_e (d : List Diag) (s : State) : (emitDiag d s).e = s.e := rfl
@[simp] theorem emitDiag_bind (d : List Diag) (s : State) : (emitDiag d s).bind = s.bind := rfl
@[simp] theorem emitDiag_run (d : List Diag) (s : State) : (emitDiag d s).run = s.run := rfl
@[simp] theorem emitDiag_pos (d : List Diag) (s : State) : (emitDiag d s).pos = s.pos := rfl
@[simp] theorem emitDiag_fb (d : List Diag) (s : State) : (emitDiag d s).fb = s.fb := rfl
@[simp] theorem emitDiag_len (d : List Diag) (s : State) : (emitDiag d s).len = s.len := rfl
@[simp] theorem emitDiag_rx (d : List Diag) (s : State) : (emitDiag d s).rx = s.rx := rfl
@[simp] theorem emitDiag_sink (d : List Diag) (s : State) : (emitDiag d s).sink = s.sink := rfl
@[simp] theorem emitDiag_diag (d : List Diag) (s : State) : (emitDiag d s).diag = s.diag ++ d := rfl
@[simp] theorem emitDiag_draws (d : List Diag) (s : State) : (emitDiag d s).draws = s.draws := rfl
@[simp] theorem emitDiag_sched (d : List Diag) (s : State) : (emitDiag d s).sched = s.sched := rfl

@[simp] theorem emitSink_v (ev : List Publish) (s : State) : (emitSink ev s).v = s.v := rfl
@[simp] theorem emitSink_i (ev : List Publish) (s : State) : (emitSink ev s).i = s.i := rfl
@[simp] theorem emitSink_p (ev : List Publish) (s : State) : (emitSink ev s).p = s.p := rfl
@[simp] theorem emitSink_e (ev : List Publish) (s : State) : (emitSink ev s).e = s.e := rfl
@[simp] theorem emitSink_bind (ev : List Publish) (s : State) : (emitSink ev s).bind = s.bind := rfl
@[simp] theorem emitSink_run (ev : List Publish) (s : State) : (emitSink ev s).run = s.run := rfl
@[simp] theorem emitSink_pos (ev : List Publish) (s : State) : (emitSink ev s).pos = s.pos := rfl
@[simp] theorem emitSink_fb (ev : List Publish) (s : State) : (emitSink ev s).fb = s.fb := rfl
@[simp] theorem emitSink_len (ev : List Publish) (s : State) : (emitSink ev s).len = s.len := rfl
@[simp] theorem emitSink_rx (ev : List Publish) (s : State) : (emitSink ev s).rx = s.rx := rfl
@[simp] theorem emitSink_sink (ev : List Publish) (s : State) : (emitSink ev s).sink = s.sink ++ ev := rfl
@[simp] theorem emitSink_diag (ev : List Publish) (s : State) : (emitSink ev s).diag = s.diag := rfl
@[simp] theorem emitSink_draws (ev : List Publish) (s : State) : (emitSink ev s).draws = s.draws := rfl
@[simp] theorem emitSink_sched (ev : List Publish) (s : State) : (emitSink ev s).sched = s.sched := rfl

@[simp] theorem raise_v (c : Cause) (b : List Byte) (s : State) : (raise c b s).v = s.v := rfl
@[simp] theorem raise_i (c : Cause) (b : List Byte) (s : State) : (raise c b s).i = s.i := rfl
@[simp] theorem raise_p (c : Cause) (b : List Byte) (s : State) : (raise c b s).p = s.p := rfl
@[simp] theorem raise_e (c : Cause) (b : List Byte) (s : State) : (raise c b s).e = s.e := rfl
@[simp] theorem raise_bind (c : Cause) (b : List Byte) (s : State) : (raise c b s).bind = s.bind := rfl
@[simp] theorem raise_run (c : Cause) (b : List Byte) (s : State) : (raise c b s).run = s.run := rfl
@[simp] theorem raise_pos (c : Cause) (b : List Byte) (s : State) : (raise c b s).pos = s.pos := rfl
@[simp] theorem raise_fb (c : Cause) (b : List Byte) (s : State) : (raise c b s).fb = s.fb := rfl
@[simp] theorem raise_len (c : Cause) (b : List Byte) (s : State) : (raise c b s).len = s.len := rfl
@[simp] theorem raise_rx (c : Cause) (b : List Byte) (s : State) : (raise c b s).rx = s.rx := rfl
@[simp] theorem raise_sink (c : Cause) (b : List Byte) (s : State) : (raise c b s).sink = s.sink := rfl
@[simp] theorem raise_diag (c : Cause) (b : List Byte) (s : State) : (raise c b s).diag = s.diag ++ c.events b := rfl
@[simp] theorem raise_draws (c : Cause) (b : List Byte) (s : State) : (raise c b s).draws = s.draws := rfl
@[simp] theorem raise_sched (c : Cause) (b : List Byte) (s : State) : (raise c b s).sched = s.sched := rfl

@[simp] theorem emitSummary_v (r : Record) (s : State) : (emitSummary r s).v = s.v := rfl
@[simp] theorem emitSummary_i (r : Record) (s : State) : (emitSummary r s).i = s.i := rfl
@[simp] theorem emitSummary_p (r : Record) (s : State) : (emitSummary r s).p = s.p := rfl
@[simp] theorem emitSummary_e (r : Record) (s : State) : (emitSummary r s).e = s.e := rfl
@[simp] theorem emitSummary_bind (r : Record) (s : State) : (emitSummary r s).bind = s.bind := rfl
@[simp] theorem emitSummary_run (r : Record) (s : State) : (emitSummary r s).run = s.run := rfl
@[simp] theorem emitSummary_pos (r : Record) (s : State) : (emitSummary r s).pos = s.pos := rfl
@[simp] theorem emitSummary_fb (r : Record) (s : State) : (emitSummary r s).fb = s.fb := rfl
@[simp] theorem emitSummary_len (r : Record) (s : State) : (emitSummary r s).len = s.len := rfl
@[simp] theorem emitSummary_rx (r : Record) (s : State) : (emitSummary r s).rx = s.rx := rfl
@[simp] theorem emitSummary_sink (r : Record) (s : State) : (emitSummary r s).sink = s.sink := rfl
@[simp] theorem emitSummary_diag (r : Record) (s : State) : (emitSummary r s).diag = s.diag ++ [⟨.summary, .info, .record r⟩] := rfl
@[simp] theorem emitSummary_draws (r : Record) (s : State) : (emitSummary r s).draws = s.draws := rfl
@[simp] theorem emitSummary_sched (r : Record) (s : State) : (emitSummary r s).sched = s.sched := rfl

@[simp] theorem nextDraw_v (s : State) : (nextDraw s).v = s.v := rfl
@[simp] theorem nextDraw_i (s : State) : (nextDraw s).i = s.i := rfl
@[simp] theorem nextDraw_p (s : State) : (nextDraw s).p = s.p := rfl
@[simp] theorem nextDraw_e (s : State) : (nextDraw s).e = s.e := rfl
@[simp] theorem nextDraw_bind (s : State) : (nextDraw s).bind = s.bind := rfl
@[simp] theorem nextDraw_run (s : State) : (nextDraw s).run = s.run := rfl
@[simp] theorem nextDraw_pos (s : State) : (nextDraw s).pos = s.pos := rfl
@[simp] theorem nextDraw_fb (s : State) : (nextDraw s).fb = s.fb := rfl
@[simp] theorem nextDraw_len (s : State) : (nextDraw s).len = s.len := rfl
@[simp] theorem nextDraw_rx (s : State) : (nextDraw s).rx = s.rx := rfl
@[simp] theorem nextDraw_sink (s : State) : (nextDraw s).sink = s.sink := rfl
@[simp] theorem nextDraw_diag (s : State) : (nextDraw s).diag = s.diag := rfl
@[simp] theorem nextDraw_draws (s : State) : (nextDraw s).draws = s.draws + 1 := rfl
@[simp] theorem nextDraw_sched (s : State) : (nextDraw s).sched = s.sched := rfl

@[simp] theorem takeTurn_v (s : State) : (takeTurn s).v = s.v := rfl
@[simp] theorem takeTurn_i (s : State) : (takeTurn s).i = s.i := rfl
@[simp] theorem takeTurn_p (s : State) : (takeTurn s).p = s.p := rfl
@[simp] theorem takeTurn_e (s : State) : (takeTurn s).e = s.e := rfl
@[simp] theorem takeTurn_bind (s : State) : (takeTurn s).bind = s.bind := rfl
@[simp] theorem takeTurn_run (s : State) : (takeTurn s).run = s.run := rfl
@[simp] theorem takeTurn_pos (s : State) : (takeTurn s).pos = s.pos := rfl
@[simp] theorem takeTurn_fb (s : State) : (takeTurn s).fb = s.fb := rfl
@[simp] theorem takeTurn_len (s : State) : (takeTurn s).len = s.len := rfl
@[simp] theorem takeTurn_rx (s : State) : (takeTurn s).rx = s.rx := rfl
@[simp] theorem takeTurn_sink (s : State) : (takeTurn s).sink = s.sink := rfl
@[simp] theorem takeTurn_diag (s : State) : (takeTurn s).diag = s.diag := rfl
@[simp] theorem takeTurn_draws (s : State) : (takeTurn s).draws = s.draws := rfl
@[simp] theorem takeTurn_sched (s : State) : (takeTurn s).sched = s.sched.tail := rfl

end Sys2Proof.Machine
end

