-- ==== Sys2Proof/Laws/Memory.lean ====
section
/-! SUPPORT. The frame buffer: what a load makes of its cells, and that every memory operation keeps the canonical
form. -/

namespace Sys2Proof.Machine

@[simp] theorem Memory.get_nil (a : Nat) : Memory.get [] a = none := rfl

theorem Memory.get_ofBytes_below (first : Nat) (bytes : List Byte) (a : Nat) (h : a < first) :
    (Memory.ofBytes first bytes).get a = none := by
  induction bytes generalizing first with
  | nil => rfl
  | cons b rest ih =>
    simp only [Memory.ofBytes, Memory.get, if_neg (Nat.ne_of_gt h)]
    exact ih (first + 1) (by omega)

/-- After a load, the cell at distance `k` from the first holds byte `k` of the bytes read; beyond them the cells are
unspecified (20_memory.md R33, 40_stream_ops.md R78). -/
theorem Memory.get_ofBytes_add (first : Nat) (bytes : List Byte) (k : Nat) :
    (Memory.ofBytes first bytes).get (first + k) = bytes[k]? := by
  induction bytes generalizing first k with
  | nil => rfl
  | cons b rest ih =>
    cases k with
    | zero => simp [Memory.ofBytes, Memory.get]
    | succ k =>
      have h : first ≠ first + (k + 1) := by omega
      simp only [Memory.ofBytes, Memory.get, if_neg h, List.getElem?_cons_succ]
      rw [← ih (first + 1) k]
      congr 1
      omega

@[simp] theorem Memory.get_ofBytes (bytes : List Byte) (a : Nat) : (Memory.ofBytes 0 bytes).get a = bytes[a]? := by
  simpa using Memory.get_ofBytes_add 0 bytes a

theorem Memory.frame_ofBytes_from (first : Nat) (bytes : List Byte) : (Memory.ofBytes first bytes).frame = bytes := by
  induction bytes generalizing first with
  | nil => rfl
  | cons b rest ih =>
    have := ih (first + 1)
    simp only [Memory.frame] at this
    simp [Memory.ofBytes, Memory.frame, this]

/-- The loaded frame is the bytes loaded (20_memory.md R40). -/
@[simp] theorem Memory.frame_ofBytes (bytes : List Byte) : (Memory.ofBytes 0 bytes).frame = bytes :=
  Memory.frame_ofBytes_from 0 bytes

theorem Memory.mem_ofBytes {first : Nat} {bytes : List Byte} {c : Host.Cell} (h : c ∈ Memory.ofBytes first bytes) :
    first ≤ c.1 ∧ c.1 < first + bytes.length := by
  induction bytes generalizing first with
  | nil => simp [Memory.ofBytes] at h
  | cons b rest ih =>
    simp only [Memory.ofBytes, List.mem_cons] at h
    rcases h with rfl | h
    · simp
    · have := ih h
      simp only [List.length_cons]
      omega

theorem Memory.ofBytes_rising (first : Nat) (bytes : List Byte) :
    ((Memory.ofBytes first bytes).map Prod.fst).Pairwise (· < ·) := by
  induction bytes generalizing first with
  | nil => exact List.Pairwise.nil
  | cons b rest ih =>
    refine List.Pairwise.cons ?_ (ih (first + 1))
    intro a ha
    obtain ⟨c, hc, rfl⟩ := List.mem_map.mp ha
    have := Memory.mem_ofBytes hc
    omega

/-- The empty buffer, every cell unspecified, is canonical. -/
@[simp] theorem Memory.wf_nil : Memory.wf [] = true := rfl

/-- A load of at most 49 bytes gives a canonical buffer. -/
theorem Memory.wf_ofBytes {bytes : List Byte} (h : bytes.length ≤ Config.fbSize) :
    Memory.wf (Memory.ofBytes 0 bytes) = true := by
  simp only [Memory.wf, Bool.and_eq_true, decide_eq_true_eq, List.all_eq_true]
  refine ⟨Memory.ofBytes_rising 0 bytes, fun c hc => ?_⟩
  have := Memory.mem_ofBytes hc
  omega

/-- The load of FRAME keeps the canonical form. -/
theorem loadFrame_wf {bytes : List Byte} (s : State) (h : bytes.length ≤ Config.fbSize) :
    Memory.wf (loadFrame bytes s).fb = true :=
  Memory.wf_ofBytes h

/-- Discarding the buffer keeps the canonical form. -/
theorem discardFrame_wf (s : State) : Memory.wf (discardFrame s).fb = true := rfl

/-- The reset state's buffer is canonical. -/
theorem reset_wf : Memory.wf State.reset.fb = true := rfl

end Sys2Proof.Machine
end

