-- ==== Sys2Proof/Laws/Operands.lean ====
section
/-! SUPPORT. Slots, cells and fields: what the decoders read. -/

namespace Sys2Proof

@[simp] theorem Slots.get_ofFn {w : Nat} (f : Slot → BitVec w) (k : Slot) : (Slots.ofFn f).get k = f k := by
  fin_cases k <;> rfl

/-- Two groups with the same word in every slot are equal. -/
theorem Slots.eq_of_get {w : Nat} {x y : Slots w} (h : ∀ k, x.get k = y.get k) : x = y := by
  have h0 := h 0
  have h1 := h 1
  have h2 := h 2
  have h3 := h 3
  have h4 := h 4
  have h5 := h 5
  cases x
  cases y
  simp_all [Slots.get]

@[simp] theorem Slots.get_zero {w : Nat} (k : Slot) : (Slots.zero w).get k = 0#w := by
  simp [Slots.zero]

namespace Machine

/-- A cell that holds a byte reads as that byte. -/
theorem readCell_specified {s : State} {offset : Fin Config.fbSize} {b : Byte} (h : s.fb.get offset.val = some b) :
    readCell s offset = b := by
  simp [readCell, h]

theorem toNat_append8 {w : Nat} (x : BitVec w) (y : BitVec 8) : (x ++ y).toNat = x.toNat * 256 + y.toNat := by
  rw [BitVec.toNat_append, ← Nat.shiftLeft_add_eq_or_of_lt y.isLt, Nat.shiftLeft_eq]

/-- A two-cell read, as a number (20_memory.md R36). -/
theorem memRead2_toNat (s : State) (offset : Nat) (h : offset + 2 ≤ Config.fbSize) :
    (memRead2 s offset h).toNat =
      (readCell s ⟨offset, by omega⟩).toNat * 256 + (readCell s ⟨offset + 1, by omega⟩).toNat := by
  unfold memRead2
  rw [toNat_append8]

/-- A four-cell read, as a number (20_memory.md R36). -/
theorem memRead4_toNat (s : State) (offset : Nat) (h : offset + 4 ≤ Config.fbSize) :
    (memRead4 s offset h).toNat =
      (readCell s ⟨offset, by omega⟩).toNat * 16777216 + (readCell s ⟨offset + 1, by omega⟩).toNat * 65536 +
        (readCell s ⟨offset + 2, by omega⟩).toNat * 256 + (readCell s ⟨offset + 3, by omega⟩).toNat := by
  unfold memRead4
  rw [toNat_append8, toNat_append8, toNat_append8]
  ring

/-- The bytes that a state's decoders read, cell by cell. -/
def cellsOf (s : State) (offset : Nat) : Byte :=
  (s.fb.get offset).getD (Config.freeByte s.draws offset)

/-- They agree with the specified cells. -/
theorem cellsOf_reads (s : State) : Reads s.fb (cellsOf s) := by
  intro offset b h
  simp [cellsOf, h]

theorem readCell_eq_cellsOf (s : State) (offset : Fin Config.fbSize) : readCell s offset = cellsOf s offset.val := rfl

/-- The field of a Voltage record (41_message_decode.md R91). -/
theorem decodeVoltage_toNat (s : State) : (decodeVoltage s).toNat = big16 (cellsOf s) 2 := by
  simp only [decodeVoltage, memRead2_toNat, readCell_eq_cellsOf, big16, fieldBase]

/-- The field of slot `k` of a Current record (41_message_decode.md R92). -/
theorem field16_toNat (s : State) (k : Slot) : (field16 s k).toNat = big16 (cellsOf s) (2 + 2 * k.val) := by
  simp only [field16, memRead2_toNat, readCell_eq_cellsOf, big16, fieldBase]

/-- The field of slot `k` of a Power or EnergyDelta record (41_message_decode.md R93, R94). -/
theorem field32_toNat (s : State) (k : Slot) : (field32 s k).toNat = big32 (cellsOf s) (2 + 4 * k.val) := by
  simp only [field32, memRead4_toNat, readCell_eq_cellsOf, big32, fieldBase]

/-- The decoders read the buffer and the draw only (41_message_decode.md R99). -/
theorem readCell_congr {s t : State} (hfb : s.fb = t.fb) (hd : s.draws = t.draws) (offset : Fin Config.fbSize) :
    readCell s offset = readCell t offset := by
  simp [readCell, hfb, hd]

end Machine

end Sys2Proof
end

