-- ==== Sys2Proof/Laws/Ops.lean ====
section
/-! SUPPORT. What the operations over the ByteSource and the traces can do, each said once. -/

namespace Sys2Proof.Machine

theorem rxAvail_eq (s : State) : rxAvail s = s.rx.length := rfl

theorem rxRead_eq (n : Nat) (s : State) : rxRead n s = (s.rx.take n, consume n s) := rfl

theorem consume_consume (m n : Nat) (s : State) : consume m (consume n s) = consume (n + m) s := by
  simp [consume, List.drop_drop, Nat.add_assoc]

@[simp] theorem raise_starvation (b : List Byte) (s : State) : raise .starvation b s = s := by
  simp [raise, emitDiag, Cause.events]

@[simp] theorem emitSink_nil (s : State) : emitSink [] s = s := by
  simp [emitSink]

theorem emitSink_emitSink (a b : List Publish) (s : State) : emitSink b (emitSink a s) = emitSink (a ++ b) s := by
  simp [emitSink, List.append_assoc]

/-- A publication appends its event when the sink is bound and does nothing else (42_apply_publish.md R107, R112). -/
theorem publish_eq (sink : SinkId) (num : Nat) (s : State) :
    publish sink num s = emitSink (if s.bind.getLsbD sink.bit then [⟨sink, num, sink.den⟩] else []) s := by
  unfold publish
  split <;> simp

/-- Publications of a list of sub-channels, as one emission. -/
theorem publish_foldl (sink : SubChannel → SinkId) (num : SubChannel → Nat) (cs : List SubChannel) (s : State) :
    cs.foldl (fun t c => publish (sink c) (num c) t) s =
      emitSink (cs.filterMap fun c =>
        if s.bind.getLsbD (sink c).bit then some ⟨sink c, num c, (sink c).den⟩ else none) s := by
  induction cs generalizing s with
  | nil => simp
  | cons c rest ih =>
    rw [List.foldl_cons, ih, publish_eq, emitSink_emitSink]
    simp only [emitSink_bind]
    by_cases h : s.bind.getLsbD (sink c).bit = true <;> (simp [h]; rfl)

theorem publishSlots_eq {w : Nat} (sink : SubChannel → SinkId) (regs : Slots w) (s : State) :
    publishSlots sink regs s =
      emitSink (subChannels.filterMap fun c =>
        if s.bind.getLsbD (sink c).bit then some ⟨sink c, (regs.get c.slot).toNat, (sink c).den⟩ else none) s :=
  publish_foldl sink (fun c => (regs.get c.slot).toNat) subChannels s

/-- The publications of a Current record (42_apply_publish.md R108). -/
theorem publishSlots_cur (regs : Slots 16) (s : State) :
    publishSlots .cur regs s = emitSink (slotEvents .cur 1 100 s.bind regs) s :=
  publishSlots_eq .cur regs s

/-- The publications of a Power record (42_apply_publish.md R109). -/
theorem publishSlots_pow (regs : Slots 32) (s : State) :
    publishSlots .pow regs s = emitSink (slotEvents .pow 6 1 s.bind regs) s :=
  publishSlots_eq .pow regs s

/-- The publications of an EnergyDelta record (42_apply_publish.md R110). -/
theorem publishSlots_ene (regs : Slots 64) (s : State) :
    publishSlots .ene regs s = emitSink (slotEvents .ene 11 10000 s.bind regs) s :=
  publishSlots_eq .ene regs s

end Sys2Proof.Machine
end

