-- ==== Sys2Proof/Laws/Meanings.lean ====
section
/-! SUPPORT. What the meanings answer, each said once: the drops, the four outcomes of FRAME, and the five message
operations. -/

namespace Sys2Proof.Machine

/-! ### The drops -/

theorem dropOne_cons {s : State} {b : Byte} {rest : List Byte} (head : Byte) (note : List Byte → State → State)
    (h : s.rx = b :: rest) : dropOne head note s = .next (note [b] (consume 1 (latch head s))) := by
  simp [dropOne, rxAvail, rxRead, h]

theorem dropOne_nil {s : State} (head : Byte) (note : List Byte → State → State) (h : s.rx = []) :
    dropOne head note s = .refused .readPastAvailable := by
  simp [dropOne, rxAvail, h]

/-! ### FRAME -/

/-- STARVED (40_stream_ops.md R77). -/
theorem execFrame_starved {s : State} {L : Byte} (h : s.rx.length < L.toNat + 2) :
    execFrame L s = .next (halt (latch L s)) := by
  simp [execFrame, starved, rxAvail, frameSize, h]

/-- The state in which the checks of a loaded frame are made (40_stream_ops.md R78). -/
def loaded (L : Byte) (s : State) : State :=
  loadFrame (s.rx.take (L.toNat + 2)) (consume (L.toNat + 2) (latch L s))

/-- Not STARVED, with a frame that fits the buffer: the load, the checks and the dispatch. -/
theorem execFrame_loaded {s : State} {L : Byte} (h : L.toNat + 2 ≤ s.rx.length) (hL : L.toNat + 2 ≤ Config.fbSize) :
    execFrame L s = endFrame (checkAndDispatch (loaded L s)) := by
  have h1 : ¬ s.rx.length < L.toNat + 2 := by omega
  have h2 : ¬ Config.fbSize < L.toNat + 2 := by omega
  simp [execFrame, starved, rxAvail, frameSize, h1, h2, rxRead, loaded]

@[simp] theorem loaded_get (L : Byte) (s : State) (a : Nat) :
    (loaded L s).fb.get a = (s.rx.take (L.toNat + 2))[a]? := by
  simp [loaded]

@[simp] theorem loaded_frame (L : Byte) (s : State) : (loaded L s).fb.frame = s.rx.take (L.toNat + 2) := by
  simp [loaded]

@[simp] theorem loaded_len (L : Byte) (s : State) : (loaded L s).len = L := rfl

@[simp] theorem loaded_v (L : Byte) (s : State) : (loaded L s).v = s.v := rfl

@[simp] theorem loaded_i (L : Byte) (s : State) : (loaded L s).i = s.i := rfl

@[simp] theorem loaded_p (L : Byte) (s : State) : (loaded L s).p = s.p := rfl

@[simp] theorem loaded_e (L : Byte) (s : State) : (loaded L s).e = s.e := rfl

@[simp] theorem loaded_bind (L : Byte) (s : State) : (loaded L s).bind = s.bind := rfl

@[simp] theorem loaded_run (L : Byte) (s : State) : (loaded L s).run = s.run := rfl

@[simp] theorem loaded_pos (L : Byte) (s : State) : (loaded L s).pos = s.pos + (L.toNat + 2) := rfl

@[simp] theorem loaded_rx (L : Byte) (s : State) : (loaded L s).rx = s.rx.drop (L.toNat + 2) := rfl

@[simp] theorem loaded_sink (L : Byte) (s : State) : (loaded L s).sink = s.sink := rfl

@[simp] theorem loaded_diag (L : Byte) (s : State) : (loaded L s).diag = s.diag := rfl

@[simp] theorem loaded_draws (L : Byte) (s : State) : (loaded L s).draws = s.draws := rfl

@[simp] theorem loaded_sched (L : Byte) (s : State) : (loaded L s).sched = s.sched := rfl

/-- The EOF check on the loaded bytes (40_stream_ops.md R79). -/
theorem loaded_eofOk (L : Byte) (s : State) :
    eofOk (loaded L s) = ((s.rx.take (L.toNat + 2))[L.toNat + 1]? == some Config.eof) := by
  simp only [eofOk, loaded_get, loaded_len]

/-- The checksum check on the loaded bytes (40_stream_ops.md R80). -/
theorem loaded_checksumOk (L : Byte) (s : State) :
    checksumOk (loaded L s) =
      ((s.rx.take (L.toNat + 2))[L.toNat]? == some (sum8 (((s.rx.take (L.toNat + 2)).take L.toNat).drop 1))) := by
  simp only [checksumOk, checksummed, loaded_get, loaded_frame, loaded_len]

/-! ### Dispatch -/

/-- Dispatch never stops: the message operation that the type byte selects has a next state (41_message_decode.md R90,
R99). -/
theorem dispatch_cases (t : Byte) (s : State) :
    (t = Config.tVoltage ∧ dispatch t s = .next (applyVoltage (decodeVoltage s) (nextDraw s))) ∨
    (t = Config.tCurrent ∧ dispatch t s = .next (applyCurrent (decodeCurrent s) (nextDraw s))) ∨
    (t = Config.tPower ∧ dispatch t s = .next (applyPower (decodePower s) (nextDraw s))) ∨
    (t = Config.tEnergy ∧ dispatch t s = .next (applyEnergy (decodeEnergy s) (nextDraw s))) ∨
    (recognisedType t = false ∧ dispatch t s = .next (raise .unknownType s.fb.frame s)) := by
  rcases typeByte_cases t with rfl | rfl | rfl | rfl | h
  · exact .inl ⟨rfl, rfl⟩
  · exact .inr (.inl ⟨rfl, rfl⟩)
  · exact .inr (.inr (.inl ⟨rfl, rfl⟩))
  · exact .inr (.inr (.inr (.inl ⟨rfl, rfl⟩)))
  · refine .inr (.inr (.inr (.inr ⟨h, ?_⟩)))
    simp only [recognisedType, Bool.or_eq_false_iff, beq_eq_false_iff_ne] at h
    simp [dispatch, h, execMsgUnknown]

/-- Dispatch runs the operation that the decoder of format MSG reads. -/
theorem dispatch_eq_exec (t : Byte) (s : State) : dispatch t s = exec (decodeMsg t) s := by
  rcases typeByte_cases t with rfl | rfl | rfl | rfl | h
  · rfl
  · rfl
  · rfl
  · rfl
  · rw [decodeMsg_unknown h]
    simp only [recognisedType, Bool.or_eq_false_iff, beq_eq_false_iff_ne] at h
    simp [dispatch, h, exec]

/-! ### Apply, in closed form -/

theorem applyVoltage_eq (v : BitVec 16) (s : State) :
    applyVoltage v s =
      { s with
        v := v
        sink := s.sink ++ (if s.bind.getLsbD 0 then [⟨.volt, v.toNat, 100⟩] else [])
        diag := s.diag ++ [⟨.summary, .info, .record (.voltage v)⟩] } := by
  simp [applyVoltage, publish_eq, emitSummary, emitDiag, emitSink, SinkId.bit, SinkId.den]

theorem applyCurrent_eq (c : Slots 16) (s : State) :
    applyCurrent c s =
      { s with
        i := c
        sink := s.sink ++ slotEvents .cur 1 100 s.bind c
        diag := s.diag ++ [⟨.summary, .info, .record (.current c)⟩] } := by
  simp [applyCurrent, publishSlots_cur, emitSummary, emitDiag, emitSink]

theorem applyPower_eq (p : Slots 32) (s : State) :
    applyPower p s =
      { s with
        p := p
        sink := s.sink ++ slotEvents .pow 6 1 s.bind p
        diag := s.diag ++ [⟨.summary, .info, .record (.power p)⟩] } := by
  simp [applyPower, publishSlots_pow, emitSummary, emitDiag, emitSink]

theorem applyEnergy_eq (d : Slots 32) (s : State) :
    applyEnergy d s =
      { s with
        e := accumulate s.e d
        sink := s.sink ++ slotEvents .ene 11 10000 s.bind (accumulate s.e d)
        diag := s.diag ++ [⟨.summary, .info, .record (.energyDelta d)⟩] } := by
  simp [applyEnergy, publishSlots_ene, emitSummary, emitDiag, emitSink]

/-- The new total of a slot: the old one plus the delta, modulo 2^64 (42_apply_publish.md R110). -/
theorem accumulate_toNat (e : Slots 64) (d : Slots 32) (k : Slot) :
    ((accumulate e d).get k).toNat = ((e.get k).toNat + (d.get k).toNat) % 2 ^ 64 := by
  simp [accumulate, BitVec.toNat_add, BitVec.toNat_setWidth]

end Sys2Proof.Machine
end

