-- ==== Sys2Proof/Laws/Step.lean ====
section
/-! SUPPORT. What a step can do: the turns of the agents, and the PARSER's turn case by case. -/

namespace Sys2Proof.Machine

theorem step_nil {s : State} (h : s.sched = []) : step s = parserStep s := by
  simp [step, h]

theorem step_cons {s : State} {m : Move} {rest : List Move} (h : s.sched = m :: rest) :
    step s = moveStep m (takeTurn s) := by
  simp [step, h]

theorem takeTurn_eq {s : State} {m : Move} {rest : List Move} (h : s.sched = m :: rest) :
    takeTurn s = { s with sched := rest } := by
  simp [takeTurn, h]

theorem takeTurn_nil {s : State} (h : s.sched = []) : takeTurn s = s := by
  cases s
  simp_all [takeTurn]

theorem parserStep_halted {s : State} (h : s.run = .halted) : parserStep s = .next s := by
  simp [parserStep, h, wait]

theorem parserStep_idle {s : State} (h : s.run = .running) (hrx : s.rx = []) : parserStep s = .next (halt s) := by
  simp [parserStep, h, fetch, rxPeek, hrx, idle]

theorem parserStep_exec {s : State} {b : Byte} {rest : List Byte} (h : s.run = .running) (hrx : s.rx = b :: rest) :
    parserStep s = exec (decodeLen b) s := by
  simp [parserStep, h, fetch, rxPeek, hrx]

/-- The PARSER's turn, said once: every case has a next state (40_stream_ops.md R71, R73 to R81). -/
theorem parserStep_cases (s : State) :
    (s.run = .halted ∧ parserStep s = .next s) ∨
    (s.run = .running ∧ s.rx = [] ∧ parserStep s = .next (halt s)) ∨
    (s.run = .running ∧ ∃ b rest, s.rx = b :: rest ∧
      ((b = 0x00#8 ∧ parserStep s = .next (raise .noiseByte [b] (consume 1 (latch b s)))) ∨
       (b = Config.busyByte ∧ parserStep s = .next (consume 1 (latch b s))) ∨
       (overlenByte b = true ∧ parserStep s = .next (raise .noiseByte [b] (consume 1 (latch b s)))) ∨
       (legalLength b = true ∧ s.rx.length < b.toNat + 2 ∧ parserStep s = .next (halt (latch b s))) ∨
       (legalLength b = true ∧ b.toNat + 2 ≤ s.rx.length ∧
         parserStep s = endFrame (checkAndDispatch (loaded b s))))) := by
  rcases hrun : s.run with _ | _
  · exact .inl ⟨rfl, parserStep_halted hrun⟩
  · rcases hrx : s.rx with _ | ⟨b, rest⟩
    · exact .inr (.inl ⟨rfl, rfl, parserStep_idle hrun hrx⟩)
    · refine .inr (.inr ⟨rfl, b, rest, rfl, ?_⟩)
      have hstep := parserStep_exec hrun hrx
      rcases headByte_cases b with hb | hb | hb | hb
      · subst hb
        exact .inl ⟨rfl, hstep.trans (dropOne_cons _ _ hrx)⟩
      · subst hb
        exact .inr (.inl ⟨rfl, hstep.trans (dropOne_cons Config.busyByte (fun _ t => t) hrx)⟩)
      · rw [decodeLen_overlen hb] at hstep
        exact .inr (.inr (.inl ⟨hb, hstep.trans (dropOne_cons _ _ hrx)⟩))
      · rw [decodeLen_frame hb] at hstep
        have hL := legalLength_bounds hb
        rw [← hrx]
        by_cases h : s.rx.length < b.toNat + 2
        · exact .inr (.inr (.inr (.inl ⟨hb, h, hstep.trans (execFrame_starved h)⟩)))
        · have h' : b.toNat + 2 ≤ s.rx.length := by omega
          have hs : b.toNat + 2 ≤ Config.fbSize := by
            have : Config.fbSize = 49 := rfl
            omega
          exact .inr (.inr (.inr (.inr ⟨hb, h', hstep.trans (execFrame_loaded h' hs)⟩)))

/-- The checks of a loaded frame, said once: BAD_EOF, BAD_CHECKSUM, or the dispatch of a frame that passed both
(40_stream_ops.md R79 to R81). -/
theorem checkAndDispatch_cases (s : State) :
    (eofOk s = false ∧ checkAndDispatch s = .next (raise .badEof s.fb.frame s)) ∨
    (eofOk s = true ∧ checksumOk s = false ∧ checkAndDispatch s = .next (raise .badChecksum s.fb.frame s)) ∨
    (eofOk s = true ∧ checksumOk s = true ∧ checkAndDispatch s = dispatch (typeByte s) s) := by
  unfold checkAndDispatch
  rcases eofOk s <;> rcases checksumOk s <;> simp

/-- The same, with the dispatch said too: a loaded frame always has a next state, one of seven. -/
theorem checkAndDispatch_results (s : State) :
    (eofOk s = false ∧ checkAndDispatch s = .next (raise .badEof s.fb.frame s)) ∨
    (eofOk s = true ∧ checksumOk s = false ∧ checkAndDispatch s = .next (raise .badChecksum s.fb.frame s)) ∨
    (eofOk s = true ∧ checksumOk s = true ∧
      ((typeByte s = Config.tVoltage ∧ checkAndDispatch s = .next (applyVoltage (decodeVoltage s) (nextDraw s))) ∨
       (typeByte s = Config.tCurrent ∧ checkAndDispatch s = .next (applyCurrent (decodeCurrent s) (nextDraw s))) ∨
       (typeByte s = Config.tPower ∧ checkAndDispatch s = .next (applyPower (decodePower s) (nextDraw s))) ∨
       (typeByte s = Config.tEnergy ∧ checkAndDispatch s = .next (applyEnergy (decodeEnergy s) (nextDraw s))) ∨
       (recognisedType (typeByte s) = false ∧ checkAndDispatch s = .next (raise .unknownType s.fb.frame s)))) := by
  rcases checkAndDispatch_cases s with h | h | ⟨h1, h2, h⟩
  · exact .inl h
  · exact .inr (.inl h)
  · refine .inr (.inr ⟨h1, h2, ?_⟩)
    rw [h]
    exact dispatch_cases _ _

theorem endFrame_next {o : Host.Outcome State Fault Refusal} {t : State} (h : endFrame o = .next t) :
    ∃ u, o = .next u ∧ t = discardFrame u := by
  cases o with
  | next u => exact ⟨u, rfl, by simpa [endFrame] using h.symm⟩
  | fault r => cases h
  | refused r => cases h

/-- The PARSER's turn read backwards: what a next state can be. -/
theorem parserStep_inv {s t : State} (h : parserStep s = .next t) :
    (s.run = .halted ∧ t = s) ∨
    (s.run = .running ∧ s.rx = [] ∧ t = halt s) ∨
    (s.run = .running ∧ ∃ b rest, s.rx = b :: rest ∧
      (((b = 0x00#8 ∨ overlenByte b = true) ∧ t = raise .noiseByte [b] (consume 1 (latch b s))) ∨
       (b = Config.busyByte ∧ t = consume 1 (latch b s)) ∨
       (legalLength b = true ∧ s.rx.length < b.toNat + 2 ∧ t = halt (latch b s)) ∨
       (legalLength b = true ∧ b.toNat + 2 ≤ s.rx.length ∧
         ∃ u, checkAndDispatch (loaded b s) = .next u ∧ t = discardFrame u))) := by
  rcases parserStep_cases s with ⟨hr, h'⟩ | ⟨hr, hrx, h'⟩ | ⟨hr, b, rest, hrx, h'⟩
  · exact .inl ⟨hr, by rw [h'] at h; cases h; rfl⟩
  · exact .inr (.inl ⟨hr, hrx, by rw [h'] at h; cases h; rfl⟩)
  · refine .inr (.inr ⟨hr, b, rest, hrx, ?_⟩)
    rcases h' with ⟨hb, h'⟩ | ⟨hb, h'⟩ | ⟨hb, h'⟩ | ⟨hb, hl, h'⟩ | ⟨hb, hl, h'⟩ <;> rw [h'] at h
    · exact .inl ⟨.inl hb, by cases h; rfl⟩
    · exact .inr (.inl ⟨hb, by cases h; rfl⟩)
    · exact .inl ⟨.inr hb, by cases h; rfl⟩
    · exact .inr (.inr (.inl ⟨hb, hl, by cases h; rfl⟩))
    · exact .inr (.inr (.inr ⟨hb, hl, endFrame_next h⟩))

/-- The turn that a step gives is the PARSER's when the schedule says so or holds nothing. -/
def ParserNext (s : State) : Prop :=
  s.sched = [] ∨ s.sched.head? = some .parser

/-- A step read backwards: whose turn it was and what the next state can be. -/
theorem step_inv {s t : State} (h : step s = .next t) :
    (ParserNext s ∧ parserStep (takeTurn s) = .next t) ∨
    (∃ b, s.sched.head? = some (.append b) ∧ t = takeTurn { s with rx := s.rx ++ [b] }) ∨
    (s.sched.head? = some .tick ∧ s.run = .halted ∧ t = takeTurn { s with run := .running }) ∨
    (∃ value, s.sched.head? = some (.writeBind value) ∧ s.run = .halted ∧ t = takeTurn { s with bind := value }) ∨
    (s.sched.head? = some .reset ∧ s.run = .halted ∧
      t = { State.reset with draws := s.draws, sched := s.sched.tail }) := by
  rcases hs : s.sched with _ | ⟨m, rest⟩
  · rw [step_nil hs] at h
    exact .inl ⟨.inl hs, by rwa [takeTurn_nil hs]⟩
  · rw [step_cons hs] at h
    cases m with
    | parser => exact .inl ⟨.inr (by simp [hs]), h⟩
    | append b => exact .inr (.inl ⟨b, rfl, by simpa [moveStep, producerAppend, takeTurn, hs] using h.symm⟩)
    | tick =>
      cases hr : s.run <;> simp [moveStep, hostTick, hr] at h
      exact .inr (.inr (.inl ⟨rfl, rfl, by simp [← h, takeTurn, hs]⟩))
    | writeBind value =>
      cases hr : s.run <;> simp [moveStep, hostWriteBind, hr] at h
      exact .inr (.inr (.inr (.inl ⟨value, rfl, rfl, by simp [← h, takeTurn, hs]⟩)))
    | reset =>
      cases hr : s.run <;> simp [moveStep, hostReset, hr] at h
      exact .inr (.inr (.inr (.inr ⟨rfl, rfl, by simp [← h, hs]⟩)))

end Sys2Proof.Machine
end

