-- ==== Sys2Proof/Laws/Frames.lean ====
section
/-! SUPPORT. Frames on the wire and in the buffer: the fields' bytes joined again, and what the loaded candidate says of
the checks and the type byte. -/

namespace Sys2Proof

theorem be16_append (v : BitVec 16) : (v.extractLsb' 8 8 ++ v.extractLsb' 0 8 : BitVec 16) = v := by
  have h : ∀ w : BitVec (8 + 8), w.extractLsb' 8 8 ++ w.extractLsb' 0 8 = w := by
    intro w
    apply BitVec.eq_of_getLsbD_eq
    intro i hi
    rw [BitVec.getLsbD_append]
    split
    · simp [*]
    · simp [show i - 8 < 8 by omega, show 8 + (i - 8) = i by omega]
  exact h v

theorem be32_append (v : BitVec 32) :
    (v.extractLsb' 24 8 ++ v.extractLsb' 16 8 ++ v.extractLsb' 8 8 ++ v.extractLsb' 0 8 : BitVec 32) = v := by
  have h : ∀ w : BitVec (8 + 8 + 8 + 8),
      w.extractLsb' 24 8 ++ w.extractLsb' 16 8 ++ w.extractLsb' 8 8 ++ w.extractLsb' 0 8 = w := by
    intro w
    apply BitVec.eq_of_getLsbD_eq
    intro i hi
    rw [BitVec.getLsbD_append]
    split
    · simp [*]
    · rw [BitVec.getLsbD_append]
      split
      · simp [*, show 8 + (i - 8) = i by omega]
      · rw [BitVec.getLsbD_append]
        split
        · simp [*, show 16 + (i - 8 - 8) = i by omega]
        · simp [show i - 8 - 8 - 8 < 8 by omega, show 24 + (i - 8 - 8 - 8) = i by omega]
  exact h v

namespace Machine

/-- The candidate's bytes: the head byte and `L + 1` more. -/
theorem candidate_bytes {s : State} {b : Byte} {rest : List Byte} (hrx : s.rx = b :: rest)
    (hl : b.toNat + 2 ≤ s.rx.length) :
    ∃ tail, s.rx.take (b.toNat + 2) = b :: tail ∧ tail.length = b.toNat + 1 := by
  refine ⟨rest.take (b.toNat + 1), by simp [hrx], ?_⟩
  simp [hrx] at hl ⊢
  omega

theorem wholeCandidate_taken {s : State} {b : Byte} {rest : List Byte} (hrx : s.rx = b :: rest)
    (hb : legalLength b = true) (hl : b.toNat + 2 ≤ s.rx.length) :
    wholeCandidate (s.rx.take (b.toNat + 2)) = true := by
  obtain ⟨tail, h, ht⟩ := candidate_bytes hrx hl
  rw [h]
  simp [wholeCandidate, hb, ht]

theorem eofRight_taken {s : State} {b : Byte} {rest : List Byte} (hrx : s.rx = b :: rest)
    (hl : b.toNat + 2 ≤ s.rx.length) : eofRight (s.rx.take (b.toNat + 2)) = eofOk (loaded b s) := by
  obtain ⟨tail, h, -⟩ := candidate_bytes hrx hl
  rw [loaded_eofOk, h]
  rfl

/-- The candidate is a frame exactly when it passes both checks. -/
theorem isFrame_taken {s : State} {b : Byte} {rest : List Byte} (hrx : s.rx = b :: rest)
    (hb : legalLength b = true) (hl : b.toNat + 2 ≤ s.rx.length) :
    isFrame (s.rx.take (b.toNat + 2)) = (eofOk (loaded b s) && checksumOk (loaded b s)) := by
  obtain ⟨tail, h, ht⟩ := candidate_bytes hrx hl
  rw [loaded_eofOk, loaded_checksumOk, h]
  simp [isFrame, hb, ht]

/-- The type byte of the loaded candidate is its second byte. -/
theorem typeByte_taken {s : State} {b : Byte} {rest : List Byte} (hrx : s.rx = b :: rest)
    (hl : b.toNat + 2 ≤ s.rx.length) : (s.rx.take (b.toNat + 2))[1]? = some (typeByte (loaded b s)) := by
  obtain ⟨tail, h, ht⟩ := candidate_bytes hrx hl
  have hlt : 1 < (s.rx.take (b.toNat + 2)).length := by rw [h]; simp; omega
  have h1 := List.getElem?_eq_getElem hlt
  rw [h1]
  congr 1
  symm
  apply readCell_specified
  rw [loaded_get]
  exact h1

/-- Where the buffer holds a frame, the cells that a decoder reads are the frame's bytes. -/
theorem cellsOf_frame {s : State} {frame : List Byte} {a : Nat} {b : Byte} (h : s.fb = Memory.ofBytes 0 frame)
    (hb : frame[a]? = some b) : cellsOf s a = b :=
  cellsOf_reads s a b (by rw [h]; simpa using hb)

/-- The checks and the dispatch leave the length latch alone. -/
theorem checkAndDispatch_len {s t : State} (h : checkAndDispatch s = .next t) : t.len = s.len := by
  rcases checkAndDispatch_results s with
    ⟨-, hc⟩ | ⟨-, -, hc⟩ | ⟨-, -, ⟨-, hc⟩ | ⟨-, hc⟩ | ⟨-, hc⟩ | ⟨-, hc⟩ | ⟨-, hc⟩⟩ <;>
    rw [hc] at h <;> cases h <;> simp [applyVoltage_eq, applyCurrent_eq, applyPower_eq, applyEnergy_eq]

/-- The step has taken the first turn of the schedule. -/
theorem step_sched {s t : State} (h : step s = .next t) : t.sched = s.sched.tail := by
  rcases step_inv h with ⟨-, h⟩ | ⟨b, -, rfl⟩ | ⟨-, -, rfl⟩ | ⟨v, -, -, rfl⟩ | ⟨-, -, rfl⟩
  · rw [show s.sched.tail = (takeTurn s).sched from rfl]
    generalize takeTurn s = s at h
    rcases parserStep_inv h with ⟨-, rfl⟩ | ⟨-, -, rfl⟩ | ⟨-, b, rest, -, h'⟩
    · simp
    · simp
    · rcases h' with ⟨-, rfl⟩ | ⟨-, rfl⟩ | ⟨-, -, rfl⟩ | ⟨-, -, u, hu, rfl⟩
      · simp
      · simp
      · simp
      · rcases checkAndDispatch_results (loaded b s) with
          ⟨-, hc⟩ | ⟨-, -, hc⟩ | ⟨-, -, ⟨-, hc⟩ | ⟨-, hc⟩ | ⟨-, hc⟩ | ⟨-, hc⟩ | ⟨-, hc⟩⟩ <;>
          rw [hc] at hu <;> cases hu <;> simp [applyVoltage_eq, applyCurrent_eq, applyPower_eq, applyEnergy_eq]
  all_goals simp

end Machine

end Sys2Proof
end

