-- ==== Sys2Proof/Laws/Parse.lean ====
section
/-! SUPPORT. The reference function, one outcome at a time. -/

namespace Sys2Proof.Machine

/-- The first outcome of `Parse`, none when the bytes make no complete operation. -/
def firstOutcome (rx : List Byte) : Option Parsed :=
  match rx with
  | [] => none
  | b :: tail =>
    if b = 0x00#8 then some (.drop b true)
    else if b = Config.busyByte then some (.drop b false)
    else if Config.maxMsgLength ≤ b.toNat then some (.drop b true)
    else if (b :: tail).length < b.toNat + 2 then none
    else some (parseFrame b.toNat ((b :: tail).take (b.toNat + 2)))

@[simp] theorem parseFrame_size (L : Nat) (b : List Byte) : (parseFrame L b).size = b.length := by
  unfold parseFrame
  split
  · rfl
  · split <;> rfl

/-- An outcome takes at least one byte and no more than there are. -/
theorem firstOutcome_size {rx : List Byte} {o : Parsed} (h : firstOutcome rx = some o) :
    0 < o.size ∧ o.size ≤ rx.length := by
  cases rx with
  | nil => simp [firstOutcome] at h
  | cons b tail =>
    simp only [firstOutcome] at h
    split_ifs at h with h0 h1 h2 h3 <;> cases h
    · simp [Parsed.size]
    · simp [Parsed.size]
    · simp [Parsed.size]
    · simp

theorem parseUpTo_succ (n : Nat) (rx : List Byte) :
    parseUpTo (n + 1) rx =
      match firstOutcome rx with
      | none => ([], rx)
      | some o => (o :: (parseUpTo n (rx.drop o.size)).1, (parseUpTo n (rx.drop o.size)).2) := by
  cases rx with
  | nil => rfl
  | cons b tail =>
    simp only [parseUpTo, firstOutcome]
    split_ifs with h0 h1 h2 h3
    · rfl
    · rfl
    · rfl
    · rfl
    · have : ((b :: tail).take (b.toNat + 2)).length = b.toNat + 2 := by simp at *; omega
      simp only [parseFrame_size, this]

/-- More fuel than bytes changes nothing. -/
theorem parseUpTo_enough (n : Nat) :
    ∀ (m : Nat) (rx : List Byte), rx.length ≤ n → rx.length ≤ m → parseUpTo n rx = parseUpTo m rx := by
  induction n with
  | zero =>
    intro m rx h _
    obtain rfl : rx = [] := by simpa using h
    cases m <;> rfl
  | succ n ih =>
    intro m rx h h'
    cases m with
    | zero =>
      obtain rfl : rx = [] := by simpa using h'
      rfl
    | succ m =>
      rw [parseUpTo_succ, parseUpTo_succ]
      cases hf : firstOutcome rx with
      | none => rfl
      | some o =>
        have := firstOutcome_size hf
        simp only
        rw [ih m (rx.drop o.size) (by simp; omega) (by simp; omega)]

theorem parse_none {rx : List Byte} (h : firstOutcome rx = none) : parse rx = ([], rx) := by
  unfold parse
  cases rx.length with
  | zero => rfl
  | succ n => rw [parseUpTo_succ, h]

theorem parse_some {rx : List Byte} {o : Parsed} (h : firstOutcome rx = some o) :
    parse rx = (o :: (parse (rx.drop o.size)).1, (parse (rx.drop o.size)).2) := by
  have hs := firstOutcome_size h
  unfold parse
  cases hl : rx.length with
  | zero => omega
  | succ n =>
    rw [parseUpTo_succ, h]
    simp only
    rw [parseUpTo_enough n (rx.drop o.size).length (rx.drop o.size) (by simp; omega) (Nat.le_refl _)]

end Sys2Proof.Machine
end

