-- ==== Sys2Proof/Laws/PerInstr.lean ====
section
/-! SUPPORT. Statements made per instruction, as syntax. Family EncodeMatchesTable: the word of a well-formed
instruction matches exactly one row of its format in the opcode table, and that row bears the instruction's
mnemonic. -/

namespace Sys2Proof.Laws.EncodeMatchesTable

/-- The instruction's word matches exactly one row of its format, of its own mnemonic (30_encoding.md R68). -/
def Statement (i : Instr) : Prop :=
  i.wf = true → ((rows i.format).filter (·.matches (selector i))).map (·.mnemonic) = [i.mnemonic]

theorem dropZero : Statement .dropZero := fun _ => by decide

theorem dropFiller : Statement .dropFiller := fun _ => by decide

theorem dropOverlen (byte : Byte) : Statement (.dropOverlen byte) := by
  have h : ∀ b : Byte, overlenByte b = true →
      (lenRows.filter (·.matches b)).map (·.mnemonic) = ["DROP_OVERLEN"] := by decide
  exact h byte

theorem frame (length : Byte) : Statement (.frame length) := by
  have h : ∀ b : Byte, legalLength b = true →
      (lenRows.filter (·.matches b)).map (·.mnemonic) = ["FRAME"] := by decide
  exact h length

theorem msgVoltage : Statement .msgVoltage := fun _ => by decide

theorem msgCurrent : Statement .msgCurrent := fun _ => by decide

theorem msgPower : Statement .msgPower := fun _ => by decide

theorem msgEnergy : Statement .msgEnergy := fun _ => by decide

theorem msgUnknown (type : Byte) : Statement (.msgUnknown type) := by
  have h : ∀ b : Byte, (!recognisedType b) = true →
      (msgRows.filter (·.matches b)).map (·.mnemonic) = ["MSG_UNKNOWN"] := by decide
  exact h type

end Sys2Proof.Laws.EncodeMatchesTable
end

