-- ==== Sys2Proof/Laws/Run.lean ====
section
/-! SUPPORT. Runs of several steps. -/

namespace Sys2Proof.Machine

@[simp] theorem runFor_zero (s : State) : runFor 0 s = .next s := rfl

theorem runFor_succ_next {s t : State} (n : Nat) (h : step s = .next t) : runFor (n + 1) s = runFor n t := by
  have h' : Sys2Proof.core.step s = .next t := h
  simp only [runFor, Host.Core.run, h']
  rfl

theorem runFor_succ_fault {s : State} {r : Fault} (n : Nat) (h : step s = .fault r) :
    runFor (n + 1) s = .fault r := by
  simp only [runFor, Host.Core.run, show Sys2Proof.core.step s = .fault r from h]
  rfl

theorem runFor_succ_refused {s : State} {r : Refusal} (n : Nat) (h : step s = .refused r) :
    runFor (n + 1) s = .refused r := by
  simp only [runFor, Host.Core.run, show Sys2Proof.core.step s = .refused r from h]
  rfl

/-- A run that has a next state passes through one after its first step. -/
theorem runFor_succ_inv {s t : State} {n : Nat} (h : runFor (n + 1) s = .next t) :
    ∃ u, step s = .next u ∧ runFor n u = .next t := by
  rcases hs : step s with u | r | r
  · exact ⟨u, rfl, (runFor_succ_next n hs).symm.trans h⟩
  · have h' : Sys2Proof.core.step s = .fault r := hs
    simp [runFor, Host.Core.run, h'] at h
  · have h' : Sys2Proof.core.step s = .refused r := hs
    simp [runFor, Host.Core.run, h'] at h

/-- Runs compose. -/
theorem runFor_add {s u : State} {m : Nat} (n : Nat) (h : runFor m s = .next u) : runFor (m + n) s = runFor n u := by
  induction m generalizing s with
  | zero =>
    have : s = u := by simpa using h
    simp [this]
  | succ m ih =>
    obtain ⟨v, hv, hrun⟩ := runFor_succ_inv h
    rw [Nat.succ_add, runFor_succ_next _ hv]
    exact ih hrun

theorem runFor_snoc {s t : State} {n : Nat} (h : runFor n s = .next t) : runFor (n + 1) s = step t := by
  rw [runFor_add 1 h]
  cases hs : step t with
  | next u => exact runFor_succ_next 0 hs
  | fault r => exact runFor_succ_fault 0 hs
  | refused r => exact runFor_succ_refused 0 hs

/-- A run that has stopped stays as it stopped. -/
theorem runFor_snoc_stop {s : State} {n : Nat} (h : ∀ t, runFor n s ≠ .next t) : runFor (n + 1) s = runFor n s := by
  induction n generalizing s with
  | zero => exact absurd rfl (h s)
  | succ n ih =>
    cases hs : step s with
    | next u =>
      rw [runFor_succ_next _ hs] at h ⊢
      rw [runFor_succ_next _ hs]
      exact ih h
    | fault r => rw [runFor_succ_fault _ hs, runFor_succ_fault _ hs]
    | refused r => rw [runFor_succ_refused _ hs, runFor_succ_refused _ hs]

end Sys2Proof.Machine
end

