-- ==== Sys2Proof/Laws/Schedule.lean ====
section
/-! SUPPORT. Turns that the environment gives, and endless schedules: what one turn can do, and that the first turns of
every endless schedule are a run of `step` on a state that lists them. -/

namespace Sys2Proof.Machine

theorem turnOf_eq (m : Move) (s : State) : turnOf m s = moveStep m s := rfl

@[simp] theorem runUnder_zero (env : Schedule) (s : State) : runUnder env 0 s = .next s := rfl

theorem runUnder_succ_next {env : Schedule} {n : Nat} {s t : State} (h : runUnder env n s = .next t) :
    runUnder env (n + 1) s = turnOf (env n) t := by
  simp only [runUnder, h]

/-- A run that has a next state passes through one before its last turn. -/
theorem runUnder_succ_inv {env : Schedule} {n : Nat} {s u : State} (h : runUnder env (n + 1) s = .next u) :
    ∃ t, runUnder env n s = .next t ∧ turnOf (env n) t = .next u := by
  cases ht : runUnder env n s with
  | next t => exact ⟨t, rfl, by rw [← runUnder_succ_next ht]; exact h⟩
  | fault r => simp [runUnder, ht] at h
  | refused r => simp [runUnder, ht] at h

/-- A turn read backwards. -/
theorem turnOf_inv {m : Move} {s t : State} (h : turnOf m s = .next t) :
    (m = .parser ∧ parserStep s = .next t) ∨
    (∃ b, m = .append b ∧ t = { s with rx := s.rx ++ [b] }) ∨
    (m = .tick ∧ s.run = .halted ∧ t = { s with run := .running }) ∨
    (∃ value, m = .writeBind value ∧ s.run = .halted ∧ t = { s with bind := value }) ∨
    (m = .reset ∧ s.run = .halted ∧ t = { State.reset with draws := s.draws, sched := s.sched }) := by
  rw [turnOf_eq] at h
  cases m with
  | parser => exact .inl ⟨rfl, h⟩
  | append b => cases h; exact .inr (.inl ⟨b, rfl, rfl⟩)
  | tick => cases hr : s.run <;> simp [moveStep, hostTick, hr] at h; exact .inr (.inr (.inl ⟨rfl, rfl, h.symm⟩))
  | writeBind value =>
    cases hr : s.run <;> simp [moveStep, hostWriteBind, hr] at h
    exact .inr (.inr (.inr (.inl ⟨value, rfl, rfl, h.symm⟩)))
  | reset =>
    cases hr : s.run <;> simp [moveStep, hostReset, hr] at h
    exact .inr (.inr (.inr (.inr ⟨rfl, rfl, h.symm⟩)))

/-- While an invocation is in progress the only turns with a next state are the PARSER's and the PRODUCER's. -/
theorem turnOf_running {m : Move} {s t : State} (h : turnOf m s = .next t) (hr : s.run = .running) :
    m = .parser ∨ ∃ b, m = .append b := by
  rcases turnOf_inv h with ⟨hm, -⟩ | ⟨b, hm, -⟩ | ⟨-, h0, -⟩ | ⟨-, -, h0, -⟩ | ⟨-, h0, -⟩
  · exact .inl hm
  · exact .inr ⟨b, hm⟩
  all_goals rw [hr] at h0; cases h0

/-- The PARSER's turn has a next state in every state. -/
theorem parserStep_next (s : State) : ∃ t, parserStep s = .next t := by
  rcases parserStep_cases s with ⟨-, h⟩ | ⟨-, -, h⟩ | ⟨-, b, rest, -, h⟩
  · exact ⟨_, h⟩
  · exact ⟨_, h⟩
  · rcases h with ⟨-, h⟩ | ⟨-, h⟩ | ⟨-, h⟩ | ⟨-, -, h⟩ | ⟨-, -, h⟩
    · exact ⟨_, h⟩
    · exact ⟨_, h⟩
    · exact ⟨_, h⟩
    · exact ⟨_, h⟩
    · rcases checkAndDispatch_results (loaded b s) with
        ⟨-, hc⟩ | ⟨-, -, hc⟩ | ⟨-, -, ⟨-, hc⟩ | ⟨-, hc⟩ | ⟨-, hc⟩ | ⟨-, hc⟩ | ⟨-, hc⟩⟩ <;>
        exact ⟨_, by rw [h, hc]; rfl⟩

/-- A turn that is not the HOST's has a next state in every state. -/
theorem turnOf_next {m : Move} (h : hostMove m = false) (s : State) : ∃ t, turnOf m s = .next t := by
  cases m with
  | parser => exact parserStep_next s
  | append b => exact ⟨_, rfl⟩
  | tick => cases h
  | writeBind value => cases h
  | reset => cases h

/-- A schedule without the HOST's moves is admissible from every state. -/
theorem admissible_of_no_host {env : Schedule} (h : ∀ n, hostMove (env n) = false) (s : State) :
    Schedule.admissible env s := by
  intro n
  induction n with
  | zero => exact ⟨s, rfl⟩
  | succ n ih =>
    obtain ⟨t, ht⟩ := ih
    rw [runUnder_succ_next ht]
    exact turnOf_next (h n) t

/-! ### The schedule that a state lists changes no turn -/

/-- An outcome whose next state, if any, lists these turns instead. -/
def withSched (ms : List Move) (o : Host.Outcome State Fault Refusal) : Host.Outcome State Fault Refusal :=
  match o with
  | .next t => .next { t with sched := ms }
  | .fault r => .fault r
  | .refused r => .refused r

theorem checkAndDispatch_sched (ms : List Move) (s : State) :
    checkAndDispatch { s with sched := ms } = withSched ms (checkAndDispatch s) := by
  have he : eofOk { s with sched := ms } = eofOk s := rfl
  have hk : checksumOk { s with sched := ms } = checksumOk s := rfl
  have ht : typeByte { s with sched := ms } = typeByte s := rfl
  rcases checkAndDispatch_cases s with ⟨h1, h⟩ | ⟨h1, h2, h⟩ | ⟨h1, h2, h⟩
  · rw [h]
    simp only [checkAndDispatch, he, h1, if_true]
    rfl
  · rw [h]
    simp only [checkAndDispatch, he, hk, h1, h2, if_true, Bool.true_eq_false, if_false]
    rfl
  · rw [h]
    simp only [checkAndDispatch, he, hk, ht, h1, h2, Bool.true_eq_false, if_false]
    generalize typeByte s = t
    rcases typeByte_cases t with rfl | rfl | rfl | rfl | hn
    · show Host.Outcome.next (applyVoltage (decodeVoltage s) (nextDraw { s with sched := ms })) =
        .next { applyVoltage (decodeVoltage s) (nextDraw s) with sched := ms }
      simp only [applyVoltage_eq]
      rfl
    · show Host.Outcome.next (applyCurrent (decodeCurrent s) (nextDraw { s with sched := ms })) =
        .next { applyCurrent (decodeCurrent s) (nextDraw s) with sched := ms }
      simp only [applyCurrent_eq]
      rfl
    · show Host.Outcome.next (applyPower (decodePower s) (nextDraw { s with sched := ms })) =
        .next { applyPower (decodePower s) (nextDraw s) with sched := ms }
      simp only [applyPower_eq]
      rfl
    · show Host.Outcome.next (applyEnergy (decodeEnergy s) (nextDraw { s with sched := ms })) =
        .next { applyEnergy (decodeEnergy s) (nextDraw s) with sched := ms }
      simp only [applyEnergy_eq]
      rfl
    · rw [dispatch_eq_exec, dispatch_eq_exec, decodeMsg_unknown hn]
      rfl

theorem parserStep_sched (ms : List Move) (s : State) :
    parserStep { s with sched := ms } = withSched ms (parserStep s) := by
  obtain hr | hr : s.run = .halted ∨ s.run = .running := by cases s.run <;> simp
  · rw [parserStep_halted (s := { s with sched := ms }) hr, parserStep_halted hr]
    rfl
  · obtain hrx | ⟨b, rest, hrx⟩ : s.rx = [] ∨ ∃ b rest, s.rx = b :: rest := by cases s.rx <;> simp
    · rw [parserStep_idle (s := { s with sched := ms }) hr hrx, parserStep_idle hr hrx]
      rfl
    · rw [parserStep_exec (s := { s with sched := ms }) hr hrx, parserStep_exec hr hrx]
      rcases headByte_cases b with rfl | rfl | h | h
      · exact (dropOne_cons (s := { s with sched := ms }) _ _ hrx).trans
          (congrArg (withSched ms) (dropOne_cons (s := s) _ (raise .noiseByte) hrx)).symm
      · rw [decodeLen_filler]
        exact (dropOne_cons (s := { s with sched := ms }) Config.busyByte (fun _ t => t) hrx).trans
          (congrArg (withSched ms) (dropOne_cons (s := s) Config.busyByte (fun _ t => t) hrx)).symm
      · rw [decodeLen_overlen h]
        exact (dropOne_cons (s := { s with sched := ms }) _ _ hrx).trans
          (congrArg (withSched ms) (dropOne_cons (s := s) _ (raise .noiseByte) hrx)).symm
      · rw [decodeLen_frame h]
        show execFrame b { s with sched := ms } = withSched ms (execFrame b s)
        by_cases hl : s.rx.length < b.toNat + 2
        · rw [execFrame_starved (s := { s with sched := ms }) hl, execFrame_starved hl]
          rfl
        · have hb := legalLength_bounds h
          have hsize : b.toNat + 2 ≤ Config.fbSize := by simp only [Config.fbSize]; omega
          rw [execFrame_loaded (s := { s with sched := ms }) (Nat.le_of_not_lt hl) hsize,
            execFrame_loaded (Nat.le_of_not_lt hl) hsize,
            show loaded b { s with sched := ms } = { loaded b s with sched := ms } from rfl, checkAndDispatch_sched]
          cases checkAndDispatch (loaded b s) <;> rfl

/-- A turn does not depend on the turns that the state still lists. -/
theorem turnOf_sched (m : Move) (ms : List Move) (s : State) :
    turnOf m { s with sched := ms } = withSched ms (turnOf m s) := by
  simp only [turnOf_eq]
  cases m with
  | parser => exact parserStep_sched ms s
  | append b => rfl
  | tick => cases hr : s.run <;> simp [moveStep, hostTick, hr, withSched]
  | writeBind value => cases hr : s.run <;> simp [moveStep, hostWriteBind, hr, withSched]
  | reset => cases hr : s.run <;> simp [moveStep, hostReset, hr, withSched]

theorem Schedule.first_succ (env : Schedule) (n : Nat) : Schedule.first env (n + 1) = Schedule.first env n ++ [env n] := by
  simp [Schedule.first, List.range_succ]

/-- The first `n` turns of an endless schedule are `n` steps of the machine on the state that lists them. -/
theorem runFor_first (env : Schedule) (n : Nat) (ms : List Move) (s : State) :
    runFor n { s with sched := Schedule.first env n ++ ms } = withSched ms (runUnder env n s) := by
  induction n generalizing ms with
  | zero => rfl
  | succ n ih =>
    have hn := ih (env n :: ms)
    rw [Schedule.first_succ, List.append_assoc, List.singleton_append]
    cases ht : runUnder env n s with
    | next t =>
      rw [ht] at hn
      rw [runFor_snoc hn, runUnder_succ_next ht, ← turnOf_sched]
      rfl
    | fault r =>
      rw [ht] at hn
      rw [runFor_snoc_stop (by rw [hn]; intro t h; cases h), hn]
      simp only [runUnder, ht]
      rfl
    | refused r =>
      rw [ht] at hn
      rw [runFor_snoc_stop (by rw [hn]; intro t h; cases h), hn]
      simp only [runUnder, ht]
      rfl

end Sys2Proof.Machine
end

