-- ==== Sys2Proof/Tests/Slice0.lean ====
section
/-! SUPPORT. Tests on fixed values, and for each obligation with hypotheses a concrete state and operands that meet
them. Expected results come from spec/95_test_vectors.md (named V<n>.<m> or X<n> there) or are worked out by hand from
the rule named. -/

namespace Sys2Proof.Tests

open Sys2Proof.Machine

/-! ### Well-formedness: an ill-formed term for each check -/

theorem test_wf_refuses_overlen_below_range : Instr.wf (.dropOverlen 0x2F#8) = false := by decide

theorem test_wf_refuses_overlen_filler : Instr.wf (.dropOverlen 0xB5#8) = false := by decide

theorem test_wf_refuses_frame_zero : Instr.wf (.frame 0x00#8) = false := by decide

theorem test_wf_refuses_frame_48 : Instr.wf (.frame 0x30#8) = false := by decide

theorem test_wf_refuses_unknown_recognised :
    [0x0D#8, 0x0E#8, 0x0F#8, 0x10#8].map (fun t => Instr.wf (.msgUnknown t)) = [false, false, false, false] := by decide

theorem test_wf_accepts_boundaries :
    [.dropOverlen 0x30#8, .dropOverlen 0xFF#8, .frame 0x01#8, .frame 0x2F#8, .msgUnknown 0x0C#8,
      .msgUnknown 0x11#8].map Instr.wf = [true, true, true, true, true, true] := by decide

/-! ### Decoding: words written out bit by bit from the encoding columns of the opcode table -/

theorem test_decode_drop_zero : decode .len [0b00000000#8, 0x04#8] = .ok (.dropZero, [0x04#8]) := by decide

theorem test_decode_drop_filler : decode .len [0b10110101#8] = .ok (.dropFiller, []) := by decide

theorem test_decode_drop_overlen :
    [0b00110000#8, 0b10110100#8, 0b10110110#8, 0b11000000#8, 0b11111111#8].map (fun b => decode .len [b]) =
      [.ok (.dropOverlen 0x30#8, []), .ok (.dropOverlen 0xB4#8, []), .ok (.dropOverlen 0xB6#8, []),
       .ok (.dropOverlen 0xC0#8, []), .ok (.dropOverlen 0xFF#8, [])] := by decide

theorem test_decode_frame :
    [0b00000001#8, 0b00000100#8, 0b00011010#8, 0b00101111#8].map (fun b => decode .len [b]) =
      [.ok (.frame 0x01#8, []), .ok (.frame 0x04#8, []), .ok (.frame 0x1A#8, []), .ok (.frame 0x2F#8, [])] := by decide

theorem test_decode_msg_voltage : decode .msg [0b00001101#8] = .ok (.msgVoltage, []) := by decide

theorem test_decode_msg_current : decode .msg [0b00001110#8] = .ok (.msgCurrent, []) := by decide

theorem test_decode_msg_power : decode .msg [0b00001111#8] = .ok (.msgPower, []) := by decide

theorem test_decode_msg_energy : decode .msg [0b00010000#8] = .ok (.msgEnergy, []) := by decide

theorem test_decode_msg_unknown :
    [0b00000000#8, 0b00001100#8, 0b00010001#8, 0b10110101#8, 0b11000000#8].map (fun b => decode .msg [b]) =
      [.ok (.msgUnknown 0x00#8, []), .ok (.msgUnknown 0x0C#8, []), .ok (.msgUnknown 0x11#8, []),
       .ok (.msgUnknown 0xB5#8, []), .ok (.msgUnknown 0xC0#8, [])] := by decide

theorem test_decode_refuses_nothing_there : decode .len [] = .error .noByte := by decide

/-- A table word of 8 bits is the byte at the head of the stream. -/
theorem test_decode_table_word :
    [0x00, 0xB5, 0x31, 0x04].map (decodeTableWord 8) =
      [some .dropZero, some .dropFiller, some (.dropOverlen 0x31#8), some (.frame 0x04#8)] := by decide

/-! ### Built frames and checksums (T3, T4) -/

/-- V0.1, V0.3, V0.4, V0.5, V0.6. -/
theorem test_sum8 :
    [[], [0x0D#8, 0x09#8, 0xC4#8], [0xFF#8, 0xFF#8, 0xFF#8], [0x80#8, 0x80#8], [0x0D#8, 0xB5#8, 0xC0#8]].map sum8 =
      [0x00#8, 0xDA#8, 0xFD#8, 0x00#8, 0x82#8] := by decide

/-- V1.1. -/
theorem test_volt_bytes : voltBytes 2500#16 = [0x04#8, 0x0D#8, 0x09#8, 0xC4#8, 0xDA#8, 0xC0#8] := by decide

/-- V1.6. -/
theorem test_curr_bytes :
    currBytes ⟨100#16, 10#16, 20#16, 30#16, 40#16, 0#16⟩ =
      [0x0E#8, 0x0E#8, 0x00#8, 0x64#8, 0x00#8, 0x0A#8, 0x00#8, 0x14#8, 0x00#8, 0x1E#8, 0x00#8, 0x28#8, 0x00#8, 0x00#8,
       0xD6#8, 0xC0#8] := by decide

/-- V1.16: the checksum byte and the big-endian fields of a 32-bit message. -/
theorem test_enrg_bytes :
    (enrgBytes ⟨0#32, 1#32, 0xFFFFFFFF#32, 0#32, 0#32, 0#32⟩).take 14 =
        [0x1A#8, 0x10#8, 0x00#8, 0x00#8, 0x00#8, 0x00#8, 0x00#8, 0x00#8, 0x00#8, 0x01#8, 0xFF#8, 0xFF#8, 0xFF#8, 0xFF#8] ∧
      (enrgBytes ⟨0#32, 1#32, 0xFFFFFFFF#32, 0#32, 0#32, 0#32⟩).drop 26 = [0x0D#8, 0xC0#8] := by decide

/-! ### One step on a small state -/

/-- The reset state with an invocation in progress and these bytes buffered. -/
def fed (rx : List Byte) : State := { State.reset with rx := rx, run := .running }

/-- The reset state with everything bound and these bytes in the frame buffer. -/
def holding (frame : List Byte) : State := { State.reset with fb := Memory.ofBytes 0 frame, bind := 0xFFFF#16 }

/-- The next state, if there is one. -/
def after (o : Host.Outcome State Fault Refusal) : Option State :=
  match o with
  | .next t => some t
  | .fault _ => none
  | .refused _ => none

/-- The stream, the cursor, the control state and the two traces of a state. -/
structure Seen where
  rx : List Byte
  pos : Nat
  run : Run
  sink : List Publish
  diag : List Diag
deriving DecidableEq, Repr

/-- What is seen of the next state. -/
def seen (o : Host.Outcome State Fault Refusal) : Option Seen :=
  (after o).map fun t => ⟨t.rx, t.pos, t.run, t.sink, t.diag⟩

/-- V2.1 with a byte after it. -/
theorem test_drop_zero :
    seen (step (fed [0x00#8, 0x04#8])) = some ⟨[0x04#8], 1, .running, [], [⟨.noiseByte, .info, .bytes [0x00#8]⟩]⟩ := by
  decide

/-- V2.2: silent. -/
theorem test_drop_filler : seen (step (fed [0xB5#8, 0x04#8])) = some ⟨[0x04#8], 1, .running, [], []⟩ := by decide

/-- V2.4, X6: one byte only. -/
theorem test_drop_overlen :
    seen (step (fed [0x31#8, 0xB5#8])) = some ⟨[0xB5#8], 1, .running, [], [⟨.noiseByte, .info, .bytes [0x31#8]⟩]⟩ := by
  decide

/-- V3.2: five bytes available, six needed. -/
theorem test_frame_starved :
    seen (step (fed [0x04#8, 0x0D#8, 0x09#8, 0xC4#8, 0xDA#8])) =
      some ⟨[0x04#8, 0x0D#8, 0x09#8, 0xC4#8, 0xDA#8], 0, .halted, [], []⟩ := by decide

/-- V3.6: both checks fail and only BAD_EOF is reported. -/
theorem test_frame_bad_eof :
    seen (step (fed [0x04#8, 0x0D#8, 0x09#8, 0xC4#8, 0xDB#8, 0xC1#8, 0xB5#8])) =
      some ⟨[0xB5#8], 6, .running, [],
        [⟨.badEof, .warning, .bytes []⟩,
         ⟨.badEof, .debug, .bytes [0x04#8, 0x0D#8, 0x09#8, 0xC4#8, 0xDB#8, 0xC1#8]⟩]⟩ := by decide

/-- V3.8: for `L = 1` the computed sum is 0. -/
theorem test_frame_bad_checksum :
    seen (step (fed [0x01#8, 0x01#8, 0xC0#8])) =
      some ⟨[], 3, .running, [],
        [⟨.badChecksum, .warning, .bytes []⟩, ⟨.badChecksum, .debug, .bytes [0x01#8, 0x01#8, 0xC0#8]⟩]⟩ := by decide

/-- V3.7: the degenerate frame is dispatched as type `0x00`. -/
theorem test_frame_degenerate :
    seen (step (fed [0x01#8, 0x00#8, 0xC0#8])) =
      some ⟨[], 3, .running, [], [⟨.unknownType, .debug, .bytes [0x01#8, 0x00#8, 0xC0#8]⟩]⟩ := by decide

/-- V3.1, with `BIND = 0x0001`: through fetch, load, both checks, dispatch and apply. -/
theorem test_frame_accepted :
    seen (step { fed [0x04#8, 0x0D#8, 0x09#8, 0xC4#8, 0xDA#8, 0xC0#8] with bind := 0x0001#16 }) =
        some ⟨[], 6, .running, [⟨.volt, 2500, 100⟩], [⟨.summary, .info, .record (.voltage 2500#16)⟩]⟩ ∧
      (after (step (fed [0x04#8, 0x0D#8, 0x09#8, 0xC4#8, 0xDA#8, 0xC0#8]))).map (·.v) = some 2500#16 := by decide

/-- V4.3: the greatest voltage. -/
theorem test_msg_voltage :
    (after (exec .msgVoltage (holding [0x04#8, 0x0D#8, 0xFF#8, 0xFF#8, 0x0B#8, 0xC0#8]))).map (·.v) =
      some 65535#16 := by decide

/-- V5.1: a short frame's voltage is read from the checksum and EOF bytes. -/
theorem test_msg_voltage_short :
    (after (exec .msgVoltage (holding [0x02#8, 0x0D#8, 0x0D#8, 0xC0#8]))).map (·.v) = some 0x0DC0#16 := by decide

/-- V6.1: lanes in order, and slot 0 is not published. -/
theorem test_msg_current :
    (after (exec .msgCurrent (holding (currBytes ⟨1#16, 2#16, 3#16, 4#16, 5#16, 6#16⟩)))).map
        (fun t => (t.i, t.sink)) =
      some (⟨1#16, 2#16, 3#16, 4#16, 5#16, 6#16⟩,
        [⟨.cur 0, 2, 100⟩, ⟨.cur 1, 3, 100⟩, ⟨.cur 2, 4, 100⟩, ⟨.cur 3, 5, 100⟩, ⟨.cur 4, 6, 100⟩]) := by decide

/-- V6.9: unbound sub-channels are skipped and a zero is still published. -/
theorem test_msg_current_bind :
    (after (exec .msgCurrent
        { holding (currBytes ⟨100#16, 10#16, 20#16, 30#16, 40#16, 0#16⟩) with bind := 0x002B#16 })).map (·.sink) =
      some [⟨.cur 0, 10, 100⟩, ⟨.cur 2, 30, 100⟩, ⟨.cur 4, 0, 100⟩] := by decide

/-- V6.4: unsigned 32-bit fields. -/
theorem test_msg_power :
    (after (exec .msgPower
        { holding (powrBytes ⟨0xFFFFFFFF#32, 0x80000000#32, 1#32, 2#32, 3#32, 4#32⟩) with bind := 0x07C0#16 })).map
        (fun t => (t.p, t.sink)) =
      some (⟨0xFFFFFFFF#32, 0x80000000#32, 1#32, 2#32, 3#32, 4#32⟩,
        [⟨.pow 0, 2147483648, 1⟩, ⟨.pow 1, 1, 1⟩, ⟨.pow 2, 2, 1⟩, ⟨.pow 3, 3, 1⟩, ⟨.pow 4, 4, 1⟩]) := by decide

/-- V6.6: the totals wrap modulo 2^64 and the new totals are published. -/
theorem test_msg_energy_wrap :
    (after (exec .msgEnergy
        { holding (enrgBytes ⟨0#32, 1#32, 0xFFFFFFFF#32, 0#32, 0#32, 0#32⟩) with
          bind := 0xF800#16
          e := ⟨5#64, 0xFFFFFFFFFFFFFFFF#64, 0xFFFFFFFFFFFFFFFF#64, 0#64, 0#64, 0#64⟩ })).map (fun t => (t.e, t.sink)) =
      some (⟨5#64, 0#64, 4294967294#64, 0#64, 0#64, 0#64⟩,
        [⟨.ene 0, 0, 10000⟩, ⟨.ene 1, 4294967294, 10000⟩, ⟨.ene 2, 0, 10000⟩, ⟨.ene 3, 0, 10000⟩,
         ⟨.ene 4, 0, 10000⟩]) := by decide

/-- V6.8, X5: accumulated, not overwritten. -/
theorem test_msg_energy_adds :
    (after (exec .msgEnergy
        { holding (enrgBytes ⟨0#32, 10000#32, 0#32, 0#32, 0#32, 0#32⟩) with
          bind := 0x0800#16
          e := ⟨0#64, 10000#64, 0#64, 0#64, 0#64, 0#64⟩ })).map (fun t => (t.e.s1, t.sink)) =
      some (20000#64, [⟨.ene 0, 20000, 10000⟩]) := by decide

/-- V4.10: the dump of the four bytes. -/
theorem test_msg_unknown :
    (after (exec (.msgUnknown 0x11#8) (holding [0x02#8, 0x11#8, 0x11#8, 0xC0#8]))).map (fun t => (t.sink, t.diag)) =
      some ([], [⟨.unknownType, .debug, .bytes [0x02#8, 0x11#8, 0x11#8, 0xC0#8]⟩]) := by decide

/-- X5: 10000 units are the exact value 1 Wh. -/
theorem test_published_value : Publish.value ⟨.ene 0, 20000, 10000⟩ = 2 := by
  norm_num [Publish.value]

/-- `withFetchWord` places the word where the next step runs it. -/
theorem test_with_fetch_word :
    seen (step (State.reset.withFetchWord 8 0xB5)) = some ⟨List.replicate 48 0x00#8, 1, .running, [], []⟩ := by decide

/-! ### The hypotheses of the obligations can be met

`witness_<Name>` gives concrete states and operands that meet the hypotheses of `Obligations.<Name>`, for each clause and
at the bounds of its ranges. -/

/-- The invocation in progress, with this schedule and these bytes. -/
def turn (moves : List Move) (rx : List Byte) : State := { fed rx with sched := moves }

/-- No invocation in progress, with this schedule and these bytes. -/
def waiting (moves : List Move) (rx : List Byte) : State := { State.reset with sched := moves, rx := rx }

/-- The Voltage frame of V1.1. -/
def voltFrame : List Byte := [0x04#8, 0x0D#8, 0x09#8, 0xC4#8, 0xDA#8, 0xC0#8]

/-- A candidate of the greatest length, zero bytes but for its last two, which are given. -/
def longZeros (checksum last : Byte) : List Byte := [0x2F#8] ++ List.replicate 46 0x00#8 ++ [checksum] ++ [last]

/-- The longest frame of zero bytes (V3.12). -/
def longFrame : List Byte := longZeros 0x00#8 0xC0#8

theorem witness_DecodeEncodeRoundTrip :
    [Instr.dropZero, .dropFiller, .dropOverlen 0x30#8, .dropOverlen 0xFF#8, .frame 0x01#8, .frame 0x2F#8, .msgVoltage,
      .msgCurrent, .msgPower, .msgEnergy, .msgUnknown 0x00#8, .msgUnknown 0xFF#8].all Instr.wf = true := by decide

theorem witness_EveryByteIsOneOperation :
    Instr.wf (.frame 0x2F#8) = true ∧ Instr.format (.frame 0x2F#8) = .len ∧ encode (.frame 0x2F#8) = [0x2F#8] ∧
      Instr.wf (.msgUnknown 0x11#8) = true ∧ Instr.format (.msgUnknown 0x11#8) = .msg ∧
      encode (.msgUnknown 0x11#8) = [0x11#8] := by decide

theorem witness_HeadByteClasses :
    (fed [0x00#8]).rx = 0x00#8 :: [] ∧ fetch (fed [0x00#8]) = some .dropZero ∧
      fetch (fed [0x01#8]) = some (.frame 0x01#8) ∧ fetch (fed [0x2F#8]) = some (.frame 0x2F#8) ∧
      fetch (fed [0x30#8]) = some (.dropOverlen 0x30#8) ∧ fetch (fed [0xB4#8]) = some (.dropOverlen 0xB4#8) ∧
      fetch (fed [0xB5#8]) = some .dropFiller ∧ fetch (fed [0xB6#8]) = some (.dropOverlen 0xB6#8) ∧
      fetch (fed [0xFF#8]) = some (.dropOverlen 0xFF#8) := by decide

/-- The fifth clause's bounds: `0x0C` and `0x11` stand beside the recognised range. -/
theorem witness_TypeByteDispatch :
    [0x0C#8, 0x11#8].all (fun T => T ≠ 0x0D#8 ∧ T ≠ 0x0E#8 ∧ T ≠ 0x0F#8 ∧ T ≠ 0x10#8) = true := by decide

theorem witness_FrameEncoderGivesFrames :
    (List.replicate 45 0x00#8).length ≤ 45 ∧ 44 < (List.replicate 45 0x00#8).length ∧ ([] : List Byte).length ≤ 45 := by
  decide

theorem witness_MemReadIsBigEndian :
    0 + 2 ≤ Config.fbSize ∧ 47 + 2 ≤ Config.fbSize ∧ 0 + 4 ≤ Config.fbSize ∧ 45 + 4 ≤ Config.fbSize := by decide

theorem witness_DropZeroResult :
    (fed [0x00#8]).rx = 0x00#8 :: [] ∧
      (fed [0x00#8, 0x00#8, 0x00#8, 0x04#8]).run = .running ∧ (fed [0x00#8, 0x00#8, 0x00#8, 0x04#8]).sched = [] ∧
      (fed [0x00#8, 0x00#8, 0x00#8, 0x04#8]).rx = List.replicate 3 0x00#8 ++ [0x04#8] := by decide

theorem witness_DropFillerResult :
    (fed [0xB5#8, 0x04#8]).rx = 0xB5#8 :: [0x04#8] ∧ fetch (fed [0xB5#8, 0x04#8]) = some .dropFiller := by decide

theorem witness_DropOverlenResult :
    [0x30#8, 0xB4#8, 0xB6#8, 0xFF#8].all
      (fun L : Byte => 0x30 ≤ L.toNat ∧ L.toNat ≠ 0xB5 ∧ (fed [L, 0xB5#8]).rx = L :: [0xB5#8]) = true := by decide

theorem witness_DropsRefusedWithoutByte : (fed []).rx = [] := by decide

theorem witness_FrameStarvedResult :
    (1 ≤ (0x01#8).toNat ∧ (0x01#8).toNat ≤ 47 ∧ (fed [0x01#8, 0x00#8]).rx = 0x01#8 :: [0x00#8] ∧
      (fed [0x01#8, 0x00#8]).rx.length < (0x01#8).toNat + 2) ∧
    (1 ≤ (0x2F#8).toNat ∧ (0x2F#8).toNat ≤ 47 ∧
      (fed (0x2F#8 :: List.replicate 47 0x00#8)).rx = 0x2F#8 :: List.replicate 47 0x00#8 ∧
      (fed (0x2F#8 :: List.replicate 47 0x00#8)).rx.length < (0x2F#8).toNat + 2) := by decide

theorem witness_FrameLoadResult :
    (1 ≤ (0x2F#8).toNat ∧ (0x2F#8).toNat ≤ 47 ∧ (0x2F#8).toNat + 2 ≤ (fed longFrame).rx.length) ∧
    (1 ≤ (0x01#8).toNat ∧ (0x01#8).toNat ≤ 47 ∧ (0x01#8).toNat + 2 ≤ (fed [0x01#8, 0x00#8, 0xC0#8]).rx.length) := by decide

/-- `L = 1`, V3.5 (`L = 4`) and V3.13 (`L = 47`). -/
theorem witness_FrameBadEofResult :
    (1 ≤ (0x01#8).toNat ∧ (0x01#8).toNat ≤ 47 ∧ [0x01#8, 0x00#8, 0xC1#8].length = (0x01#8).toNat + 2 ∧
      [0x01#8, 0x00#8, 0xC1#8][0]? = some 0x01#8 ∧ [0x01#8, 0x00#8, 0xC1#8][(0x01#8).toNat + 1]? ≠ some 0xC0#8 ∧
      (fed [0x01#8, 0x00#8, 0xC1#8, 0xB5#8]).rx = [0x01#8, 0x00#8, 0xC1#8] ++ [0xB5#8]) ∧
    (1 ≤ (0x04#8).toNat ∧ (0x04#8).toNat ≤ 47 ∧
      [0x04#8, 0x0D#8, 0x09#8, 0xC4#8, 0xDA#8, 0xC1#8].length = (0x04#8).toNat + 2 ∧
      [0x04#8, 0x0D#8, 0x09#8, 0xC4#8, 0xDA#8, 0xC1#8][0]? = some 0x04#8 ∧
      [0x04#8, 0x0D#8, 0x09#8, 0xC4#8, 0xDA#8, 0xC1#8][(0x04#8).toNat + 1]? ≠ some 0xC0#8 ∧
      (fed [0x04#8, 0x0D#8, 0x09#8, 0xC4#8, 0xDA#8, 0xC1#8, 0xB5#8]).rx =
        [0x04#8, 0x0D#8, 0x09#8, 0xC4#8, 0xDA#8, 0xC1#8] ++ [0xB5#8]) ∧
    (1 ≤ (0x2F#8).toNat ∧ (0x2F#8).toNat ≤ 47 ∧ (longZeros 0x00#8 0xC1#8).length = (0x2F#8).toNat + 2 ∧
      (longZeros 0x00#8 0xC1#8)[0]? = some 0x2F#8 ∧ (longZeros 0x00#8 0xC1#8)[(0x2F#8).toNat + 1]? ≠ some 0xC0#8 ∧
      (fed (longZeros 0x00#8 0xC1#8)).rx = longZeros 0x00#8 0xC1#8 ++ []) := by decide

/-- V3.8 (`L = 1`), V3.4 (`L = 4`), and `L = 47` with a checksum byte off by one. -/
theorem witness_FrameBadChecksumResult :
    (1 ≤ (0x01#8).toNat ∧ (0x01#8).toNat ≤ 47 ∧ [0x01#8, 0x01#8, 0xC0#8].length = (0x01#8).toNat + 2 ∧
      [0x01#8, 0x01#8, 0xC0#8][0]? = some 0x01#8 ∧ [0x01#8, 0x01#8, 0xC0#8][(0x01#8).toNat + 1]? = some 0xC0#8 ∧
      [0x01#8, 0x01#8, 0xC0#8][(0x01#8).toNat]? ≠
        some (sum8 (([0x01#8, 0x01#8, 0xC0#8].take (0x01#8).toNat).drop 1)) ∧
      (fed [0x01#8, 0x01#8, 0xC0#8]).rx = [0x01#8, 0x01#8, 0xC0#8] ++ []) ∧
    (1 ≤ (0x04#8).toNat ∧ (0x04#8).toNat ≤ 47 ∧
      [0x04#8, 0x0D#8, 0x09#8, 0xC4#8, 0xDB#8, 0xC0#8].length = (0x04#8).toNat + 2 ∧
      [0x04#8, 0x0D#8, 0x09#8, 0xC4#8, 0xDB#8, 0xC0#8][0]? = some 0x04#8 ∧
      [0x04#8, 0x0D#8, 0x09#8, 0xC4#8, 0xDB#8, 0xC0#8][(0x04#8).toNat + 1]? = some 0xC0#8 ∧
      [0x04#8, 0x0D#8, 0x09#8, 0xC4#8, 0xDB#8, 0xC0#8][(0x04#8).toNat]? ≠
        some (sum8 (([0x04#8, 0x0D#8, 0x09#8, 0xC4#8, 0xDB#8, 0xC0#8].take (0x04#8).toNat).drop 1)) ∧
      (fed [0x04#8, 0x0D#8, 0x09#8, 0xC4#8, 0xDB#8, 0xC0#8]).rx =
        [0x04#8, 0x0D#8, 0x09#8, 0xC4#8, 0xDB#8, 0xC0#8] ++ []) ∧
    (1 ≤ (0x2F#8).toNat ∧ (0x2F#8).toNat ≤ 47 ∧ (longZeros 0x01#8 0xC0#8).length = (0x2F#8).toNat + 2 ∧
      (longZeros 0x01#8 0xC0#8)[0]? = some 0x2F#8 ∧ (longZeros 0x01#8 0xC0#8)[(0x2F#8).toNat + 1]? = some 0xC0#8 ∧
      (longZeros 0x01#8 0xC0#8)[(0x2F#8).toNat]? ≠
        some (sum8 (((longZeros 0x01#8 0xC0#8).take (0x2F#8).toNat).drop 1)) ∧
      (fed (longZeros 0x01#8 0xC0#8)).rx = longZeros 0x01#8 0xC0#8 ++ []) := by decide

/-- V3.7 (`L = 1`) and V3.12 (`L = 47`). -/
theorem witness_FrameAcceptedResult :
    (isFrame [0x01#8, 0x00#8, 0xC0#8] = true ∧ [0x01#8, 0x00#8, 0xC0#8][0]? = some 0x01#8 ∧
      [0x01#8, 0x00#8, 0xC0#8][1]? = some 0x00#8 ∧
      (fed [0x01#8, 0x00#8, 0xC0#8]).rx = [0x01#8, 0x00#8, 0xC0#8] ++ []) ∧
    (isFrame longFrame = true ∧ longFrame[0]? = some 0x2F#8 ∧ longFrame[1]? = some 0x00#8 ∧
      (fed longFrame).rx = longFrame ++ []) := by decide

theorem witness_FrameOutcomesExclusive :
    [[0x01#8], [0x2F#8, 0x00#8], voltFrame].all (fun rx =>
      (fed rx).run = .running ∧ (fed rx).rx = rx ∧ 1 ≤ (rx.headD 0#8).toNat ∧ (rx.headD 0#8).toNat ≤ 47) = true := by
  decide

/-- Both sides of each bound: the fault is met at `L = 48` with 50 bytes buffered and not with 49, and the fetch gives
FRAME at `L = 1` and `L = 47`. -/
theorem witness_FrameFaultsOnlyBeyondBuffer :
    (48 ≤ (0x30#8).toNat ∧ (0x30#8).toNat + 2 ≤ (fed (List.replicate 50 0x30#8)).rx.length ∧
      exec (.frame 0x30#8) (fed (List.replicate 50 0x30#8)) = .fault .frameBufferOverrun) ∧
    (after (exec (.frame 0x30#8) (fed (List.replicate 49 0x30#8)))).isSome = true ∧
    ((0x2F#8).toNat ≤ 47 ∧ (0x00#8).toNat ≤ 47) ∧
    (fetch (fed [0x01#8]) = some (.frame 0x01#8) ∧ fetch (fed [0x2F#8]) = some (.frame 0x2F#8)) ∧
    (decodeLen 0x01#8 = .frame 0x01#8 ∧ decodeLen 0x2F#8 = .frame 0x2F#8) :=
  ⟨⟨by decide, by decide, rfl⟩, by decide, by decide, by decide, by decide⟩

/-- The clause about the dump: a canonical buffer that holds a frame. -/
theorem witness_MsgUnknownResult :
    (holding [0x02#8, 0x11#8, 0x11#8, 0xC0#8]).fb.wf = true ∧
      ∀ a, (holding [0x02#8, 0x11#8, 0x11#8, 0xC0#8]).fb.get a = [0x02#8, 0x11#8, 0x11#8, 0xC0#8][a]? := by
  refine ⟨by decide, fun a => ?_⟩
  match a with
  | 0 | 1 | 2 | 3 => rfl
  | n + 4 => simp [holding, Memory.ofBytes, Memory.get]

theorem witness_VoltageFrameUpdatesVoltage :
    (([] : List Byte).length ≤ 43 ∧ (fed voltFrame).rx = frameBytes 0x0D#8 (be16 2500#16 ++ []) ++ []) ∧
    ((List.replicate 43 0xAA#8).length ≤ 43 ∧
      (fed (frameBytes 0x0D#8 (be16 2500#16 ++ List.replicate 43 0xAA#8) ++ [0xB5#8])).rx =
        frameBytes 0x0D#8 (be16 2500#16 ++ List.replicate 43 0xAA#8) ++ [0xB5#8]) :=
  ⟨by decide, by decide, rfl⟩

/-- V1.6. -/
theorem witness_CurrentFrameUpdatesCurrents :
    ([] : List Byte).length ≤ 33 ∧
      (fed [0x0E#8, 0x0E#8, 0x00#8, 0x64#8, 0x00#8, 0x0A#8, 0x00#8, 0x14#8, 0x00#8, 0x1E#8, 0x00#8, 0x28#8, 0x00#8,
        0x00#8, 0xD6#8, 0xC0#8]).rx =
        frameBytes 0x0E#8 (slotBytes16 ⟨100#16, 10#16, 20#16, 30#16, 40#16, 0#16⟩ ++ []) ++ [] := by decide

/-- V1.9, and the longest tail. -/
theorem witness_PowerFrameUpdatesPowers :
    (([] : List Byte).length ≤ 21 ∧
      (fed ([0x1A#8, 0x0F#8, 0x00#8, 0x00#8, 0x05#8, 0xDC#8, 0x00#8, 0x00#8, 0x01#8, 0xF4#8, 0x00#8, 0x00#8, 0x03#8,
        0xE8#8] ++ List.replicate 12 0x00#8 ++ [0xD0#8, 0xC0#8])).rx =
        frameBytes 0x0F#8 (slotBytes32 ⟨1500#32, 500#32, 1000#32, 0#32, 0#32, 0#32⟩ ++ []) ++ []) ∧
    (List.replicate 21 0x00#8).length ≤ 21 := by decide

/-- The bound of the exact addition is met by slot 0 of the reset state with the greatest delta. -/
theorem witness_EnergyFrameAddsDeltas :
    ([] : List Byte).length ≤ 21 ∧
      (fed (enrgBytes ⟨0xFFFFFFFF#32, 10000#32, 0#32, 0#32, 0#32, 0#32⟩)).rx =
        frameBytes 0x10#8 (slotBytes32 ⟨0xFFFFFFFF#32, 10000#32, 0#32, 0#32, 0#32, 0#32⟩ ++ []) ++ [] ∧
      ((fed []).e.get 0).toNat + (Slots.get ⟨0xFFFFFFFF#32, 10000#32, 0#32, 0#32, 0#32, 0#32⟩ 0).toNat < 2 ^ 64 := by decide

/-- The hypotheses of the general clause hold of this frame of type `T` and length `L`. -/
def recognisedFrame (L T : Byte) (frame : List Byte) : Bool :=
  isFrame frame && frame[0]? == some L && frame[1]? == some T && recognisedType T &&
    (fed (frame ++ [0xB5#8])).rx == frame ++ [0xB5#8]

/-- Each type at its shortest (`L = 2`), each one byte short of its fields (`L = 3`, 13, 25, 25) and each just long
enough; then V5.1 and V5.2 for the two examples. -/
theorem witness_ShortFramesReadTrailer :
    [0x0D#8, 0x0E#8, 0x0F#8, 0x10#8].all (fun T => recognisedFrame 0x02#8 T (frameBytes T [])) = true ∧
    (recognisedFrame 0x03#8 0x0D#8 (frameBytes 0x0D#8 [0x09#8]) = true ∧
      recognisedFrame 0x0D#8 0x0E#8 (frameBytes 0x0E#8 (List.replicate 11 0x01#8)) = true ∧
      recognisedFrame 0x19#8 0x0F#8 (frameBytes 0x0F#8 (List.replicate 23 0x01#8)) = true ∧
      recognisedFrame 0x19#8 0x10#8 (frameBytes 0x10#8 (List.replicate 23 0x01#8)) = true) ∧
    (recognisedFrame 0x04#8 0x0D#8 voltFrame = true ∧
      recognisedFrame 0x0E#8 0x0E#8 (frameBytes 0x0E#8 (List.replicate 12 0x01#8)) = true ∧
      recognisedFrame 0x1A#8 0x0F#8 (frameBytes 0x0F#8 (List.replicate 24 0x01#8)) = true ∧
      recognisedFrame 0x1A#8 0x10#8 (frameBytes 0x10#8 (List.replicate 24 0x01#8)) = true) ∧
    (fed [0x02#8, 0x0D#8, 0x0D#8, 0xC0#8]).rx = [0x02#8, 0x0D#8, 0x0D#8, 0xC0#8] ++ [] ∧
    (fed [0x03#8, 0x0E#8, 0x05#8, 0x13#8, 0xC0#8]).rx = frameBytes 0x0E#8 [0x05#8] ++ [] := by decide

theorem witness_StepRunsDecodedOperation :
    ((fed voltFrame).run = .running ∧ (fed voltFrame).sched = [] ∧
      decode .len (fed voltFrame).rx = .ok (.frame 0x04#8, voltFrame.tail)) ∧
    ((turn [.parser, .tick] voltFrame).run = .running ∧ (turn [.parser, .tick] voltFrame).sched = .parser :: [.tick] ∧
      decode .len (turn [.parser, .tick] voltFrame).rx = .ok (.frame 0x04#8, voltFrame.tail)) := by decide

theorem witness_IdleReturns :
    ((fed []).run = .running ∧ (fed []).rx = [] ∧ (fed []).sched = []) ∧
    ((turn [.parser, .append 0xB5#8, .tick] []).run = .running ∧ (turn [.parser, .append 0xB5#8, .tick] []).rx = [] ∧
      (turn [.parser, .append 0xB5#8, .tick] []).sched = .parser :: .append 0xB5#8 :: .tick :: []) ∧
    ((waiting [.tick, .parser] []).run = .halted ∧ (waiting [.tick, .parser] []).rx = [] ∧
      (waiting [.tick, .parser] []).sched = .tick :: .parser :: []) := by decide

theorem witness_HostMovesWhileHalted :
    ((waiting [.tick] []).run = .halted ∧ (waiting [.tick] []).sched = .tick :: []) ∧
    ((waiting [.writeBind 0xFFFF#16] []).run = .halted ∧
      (waiting [.writeBind 0xFFFF#16] []).sched = .writeBind 0xFFFF#16 :: []) ∧
    ((waiting [.reset] [0x04#8]).run = .halted ∧ (waiting [.reset] [0x04#8]).sched = .reset :: []) := by decide

theorem witness_HostMovesRefusedWhileRunning :
    ((turn [.tick] []).run = .running ∧ (turn [.tick] []).sched = .tick :: []) ∧
    ((turn [.writeBind 0x0001#16] []).run = .running ∧
      (turn [.writeBind 0x0001#16] []).sched = .writeBind 0x0001#16 :: []) ∧
    ((turn [.reset] []).run = .running ∧ (turn [.reset] []).sched = .reset :: []) := by decide

theorem witness_ProducerAppends : (turn [.append 0x04#8] []).sched = .append 0x04#8 :: [] := by decide

/-- A step that adds to a trace, from a state with the invariant. -/
theorem witness_EveryStepKeepsInvariant :
    ∃ s t : State, s = fed [0x31#8, 0xB5#8] ∧ Invariant s ∧ step s = .next t ∧ t.diag ≠ s.diag :=
  ⟨fed [0x31#8, 0xB5#8], _, rfl, ⟨rfl, by decide, by decide⟩, rfl, by decide⟩

theorem witness_EveryOperationKeepsBufferCanonical :
    ∃ t, (holding voltFrame).fb.wf = true ∧ exec .msgVoltage (holding voltFrame) = .next t :=
  ⟨_, by decide, rfl⟩

/-- One step for each of the five clauses, in which that register changes. -/
theorem witness_OnlyTheirFramesWriteRegisters :
    (∃ t, step (fed voltFrame) = .next t ∧ (fed voltFrame).sched.head? ≠ some .reset ∧ t.v ≠ (fed voltFrame).v) ∧
    (∃ t, step (fed (currBytes ⟨1#16, 0#16, 0#16, 0#16, 0#16, 0#16⟩)) = .next t ∧
      t.i ≠ (fed (currBytes ⟨1#16, 0#16, 0#16, 0#16, 0#16, 0#16⟩)).i) ∧
    (∃ t, step (fed (powrBytes ⟨0#32, 0#32, 0#32, 0#32, 0#32, 1#32⟩)) = .next t ∧
      t.p ≠ (fed (powrBytes ⟨0#32, 0#32, 0#32, 0#32, 0#32, 1#32⟩)).p) ∧
    (∃ t, step (fed (enrgBytes ⟨0#32, 1#32, 0#32, 0#32, 0#32, 0#32⟩)) = .next t ∧
      t.e ≠ (fed (enrgBytes ⟨0#32, 1#32, 0#32, 0#32, 0#32, 0#32⟩)).e) ∧
    (∃ t, step (waiting [.writeBind 0x0001#16] []) = .next t ∧ t.bind ≠ (waiting [.writeBind 0x0001#16] []).bind) :=
  ⟨⟨_, rfl, by decide, by decide⟩, ⟨_, rfl, by decide⟩, ⟨_, rfl, by decide⟩, ⟨_, rfl, by decide⟩, ⟨_, rfl, by decide⟩⟩

/-- The bound of the total is met with one step to spare of 2^64. -/
theorem witness_NothingButResetClearsEnergy :
    ∃ s t : State, s = { fed [0x00#8] with e := ⟨0xFFFFFFFF00000000#64, 0#64, 0#64, 0#64, 0#64, 0#64⟩ } ∧
      Move.reset ∉ s.sched ∧ runFor 1 s = .next t ∧ (s.e.get 0).toNat + 1 * 2 ^ 32 ≤ 2 ^ 64 :=
  ⟨_, _, rfl, by decide, rfl, by decide⟩

/-- A step that reports a cause, and a starved one. -/
theorem witness_CausesLeaveRegistersAlone :
    (∃ t, step (fed [0x01#8, 0x01#8, 0xC0#8]) = .next t ∧
      (fed [0x01#8, 0x01#8, 0xC0#8]).sched.head? ≠ some .reset ∧
      ∃ d ∈ t.diag, d.cause ≠ .summary) ∧
    (∃ t, step (fed [0x04#8, 0x0D#8]) = .next t ∧ parserTurn (fed [0x04#8, 0x0D#8]) = true ∧
      (fed [0x04#8, 0x0D#8]).rx ≠ [] ∧ awaitsBytes (fed [0x04#8, 0x0D#8]).rx = true) :=
  ⟨⟨_, rfl, by decide, by decide⟩, ⟨_, rfl, by decide, by decide, by decide⟩⟩

theorem witness_CursorCountsConsumedBytes :
    ∃ t, runFor 2 (turn [.append 0xB5#8, .parser, .reset] [0x00#8]) = .next t ∧
      Move.reset ∉ (turn [.append 0xB5#8, .parser, .reset] [0x00#8]).sched.take 2 :=
  ⟨_, rfl, by decide⟩

/-- One state for each row of the table. -/
theorem witness_CursorAndControlTable :
    [[], [0x00#8], [0xB5#8], [0x30#8], [0x2F#8, 0x00#8], voltFrame].all (fun rx =>
      (fed rx).run = .running ∧ (fed rx).sched = [] ∧ (after (step (fed rx))).isSome) = true ∧
    legalLength 0x00#8 = false ∧ legalLength 0x30#8 = false ∧ legalLength 0x01#8 = true ∧ legalLength 0x2F#8 = true := by
  decide

theorem witness_InvocationsStartAndEnd :
    (∃ t, step (waiting [.tick] []) = .next t ∧ (waiting [.tick] []).run = .halted ∧ t.run = .running) ∧
    (∃ t, step (fed [0x04#8]) = .next t ∧ (fed [0x04#8]).run = .running ∧ t.run = .halted) :=
  ⟨⟨_, rfl, rfl, rfl⟩, ⟨_, rfl, rfl, rfl⟩⟩

/-- An accepted Voltage frame with nothing bound. -/
theorem witness_BindOnlyAffectsSink :
    steadyHost (turn [.parser, .append 0xB5#8] voltFrame) ∧
      (∃ t, runFor 2 (turn [.parser, .append 0xB5#8] voltFrame) = .next t) ∧
      (turn [.parser, .append 0xB5#8] voltFrame).bind = 0#16 :=
  ⟨by unfold steadyHost; decide, ⟨_, rfl⟩, rfl⟩

/-- A step that publishes. -/
theorem witness_PublishedValuesAreRegisters :
    ∃ t, step { fed voltFrame with bind := 0x0001#16 } = .next t ∧
      ({ fed voltFrame with bind := 0x0001#16 } : State).sched.head? ≠ some .reset ∧ t.sink = [⟨.volt, 2500, 100⟩] :=
  ⟨_, rfl, by decide, by decide⟩

/-- Six appends of a byte, then PARSER turns for ever. -/
def earlyAppends : Schedule := fun n => if n < 6 then .append 0x00#8 else .parser

theorem witness_InvocationTerminates :
    ((fed voltFrame).run = .running ∧ (fed voltFrame).sched = []) ∧
    ((fed []).run = .running ∧ Schedule.admissible earlyAppends (fed []) ∧ Schedule.appendsEnd earlyAppends) :=
  ⟨by decide, rfl, admissible_of_no_host (fun n => by unfold earlyAppends; split <;> rfl) _,
    6, fun n b h => by unfold earlyAppends; rw [if_neg (by omega)]; exact fun h => by cases h⟩

theorem witness_ParserRefinesParse : (fed longFrame).run = .running ∧ (fed longFrame).sched = [] := by decide

/-- V3.3 against one arrival: the frame byte by byte with a tick after each of two parts, and whole. -/
theorem witness_ScheduleIndependence :
    ∃ s t₁ t₂ one two, s = waiting [] [0x01#8] ∧ one = [.tick, .parser, .append 0x00#8, .append 0xC0#8, .tick, .parser, .parser] ∧
      two = [.append 0x00#8, .append 0xC0#8, .tick, .parser, .parser] ∧
      (∀ m ∈ one, rewires m = false) ∧ (∀ m ∈ two, rewires m = false) ∧ appended one = appended two ∧
      runFor one.length { s with sched := one } = .next t₁ ∧ runFor two.length { s with sched := two } = .next t₂ ∧
      finished t₁ = true ∧ finished t₂ = true :=
  ⟨_, _, _, _, _, rfl, rfl, rfl, by decide, by decide, by decide, rfl, rfl, by decide, by decide⟩

/-- P1: filler around one Voltage frame. -/
theorem witness_CleanStreamsExtractedExactly :
    Item.clean [.filler, .filler, .frame voltFrame, .filler] = true ∧
      (fed ([0xB5#8, 0xB5#8] ++ voltFrame ++ [0xB5#8])).run = .running ∧
      (fed ([0xB5#8, 0xB5#8] ++ voltFrame ++ [0xB5#8])).sched = [] ∧
      (fed ([0xB5#8, 0xB5#8] ++ voltFrame ++ [0xB5#8])).rx =
        [Item.filler, .filler, .frame voltFrame, .filler].flatMap Item.bytes := by decide

theorem witness_StallChangesNothing :
    (waiting [] [0x2F#8]).run = .halted ∧ awaitsBytes (waiting [] [0x2F#8]).rx = true ∧
      awaitsBytes (waiting [] []).rx = true := by decide

/-- A stray `L` before the Voltage frame: one byte too few (`L = 6`, and 47), exactly enough (`L = 5`), a candidate that
ends inside the frame (`L = 1`), none of them a frame; a stray byte one more than the length byte, at the bounds 1 and
46 of that byte; and V3.14. -/
theorem witness_FalseLengthSwallowsFrame :
    (isFrame voltFrame = true ∧ 1 ≤ (0x2F#8).toNat ∧ (0x2F#8).toNat ≤ 47 ∧ 1 ≤ (0x06#8).toNat ∧ (0x06#8).toNat ≤ 47 ∧
      (fed (0x06#8 :: (voltFrame ++ []))).rx = 0x06#8 :: (voltFrame ++ []) ∧
      voltFrame.length + ([] : List Byte).length < (0x06#8).toNat + 1 ∧
      voltFrame.length + ([] : List Byte).length < (0x2F#8).toNat + 1) ∧
    (1 ≤ (0x01#8).toNat ∧ (0x05#8).toNat + 1 ≤ voltFrame.length + ([] : List Byte).length ∧
      (0x01#8).toNat + 1 ≤ voltFrame.length + ([] : List Byte).length ∧
      isFrame (0x05#8 :: (voltFrame ++ []).take ((0x05#8).toNat + 1)) = false ∧
      isFrame (0x01#8 :: (voltFrame ++ []).take ((0x01#8).toNat + 1)) = false) ∧
    (isFrame [0x01#8, 0x00#8, 0xC0#8] = true ∧ [0x01#8, 0x00#8, 0xC0#8][0]? = some 0x01#8 ∧
      (0x02#8).toNat = (0x01#8).toNat + 1 ∧ (0x02#8).toNat ≤ 47 ∧
      (fed [0x02#8, 0x01#8, 0x00#8, 0xC0#8]).rx = 0x02#8 :: ([0x01#8, 0x00#8, 0xC0#8] ++ [])) ∧
    (isFrame (frameBytes 0x42#8 (List.replicate 44 0x00#8)) = true ∧
      (frameBytes 0x42#8 (List.replicate 44 0x00#8))[0]? = some 0x2E#8 ∧
      (0x2F#8).toNat = (0x2E#8).toNat + 1 ∧ (0x2F#8).toNat ≤ 47) ∧
    (fed [0x05#8, 0x04#8, 0x0D#8, 0x09#8, 0xC4#8, 0xDA#8, 0xC0#8]).rx = 0x05#8 :: (voltBytes 2500#16 ++ []) := by decide

/-- An operation of each format, a step that writes the latch, and steps that do not: a turn of the PARSER with no byte,
and a turn of another agent with a byte buffered. -/
theorem witness_LatchHoldsHeadByte :
    ((∃ t, exec (.frame 0x04#8) (fed voltFrame) = .next t) ∧ Instr.format (.frame 0x04#8) = .len ∧
      (∃ t, exec .msgVoltage (holding voltFrame) = .next t) ∧ Instr.format .msgVoltage = .msg) ∧
    ((∃ t, step (fed voltFrame) = .next t) ∧ (fed voltFrame).sched.head? ≠ some .reset ∧
      parserTurn (fed voltFrame) = true ∧ (fed voltFrame).rx = 0x04#8 :: voltFrame.tail) ∧
    ((∃ t, step (fed []) = .next t) ∧ (fed []).sched.head? ≠ some .reset ∧ (fed []).rx = []) ∧
    ((∃ t, step (turn [.append 0xB5#8] [0x04#8]) = .next t) ∧
      (turn [.append 0xB5#8] [0x04#8]).sched.head? ≠ some .reset ∧
      parserTurn (turn [.append 0xB5#8] [0x04#8]) = false) :=
  ⟨⟨⟨_, rfl⟩, rfl, ⟨_, rfl⟩, rfl⟩, ⟨⟨_, rfl⟩, by decide, by decide, rfl⟩, ⟨⟨_, rfl⟩, by decide, rfl⟩,
    ⟨⟨_, rfl⟩, by decide, by decide⟩⟩

/-- A state whose slot 1 is at the greatest total that a delta of 1 leaves below 2^64, with a delta of 0 in slot 0. -/
def nearlyFull : State :=
  { holding (enrgBytes ⟨0#32, 1#32, 0#32, 0#32, 0#32, 0#32⟩) with
    e := ⟨0#64, 0xFFFFFFFFFFFFFFFE#64, 0#64, 0#64, 0#64, 0#64⟩ }

theorem witness_MsgEnergyExactResult :
    (nearlyFull.e.get 1).toNat + ((decodeEnergy nearlyFull).get 1).toNat < 2 ^ 64 ∧
      (nearlyFull.e.get 1).toNat + ((decodeEnergy nearlyFull).get 1).toNat = 2 ^ 64 - 1 ∧
      (decodeEnergy nearlyFull).get 0 = 0#32 := by decide

/-- Filler bytes appended for ever, one before each turn of the PARSER. -/
def fillerFed : Schedule := feeding fun _ => 0xB5#8

/-- After each pair of turns the state is as it was but for the cursor and the latch. -/
theorem fillerFed_pairs (k : Nat) :
    runUnder fillerFed (2 * k) (fed []) = .next { fed [] with pos := k, len := if k = 0 then 0x00#8 else 0xB5#8 } := by
  induction k with
  | zero => rfl
  | succ k ih =>
    have h0 : fillerFed (2 * k) = .append 0xB5#8 := by simp [fillerFed, feeding]
    have h1 : fillerFed (2 * k + 1) = .parser := by simp [fillerFed, feeding]
    have h := runUnder_succ_next ih
    rw [h0] at h
    rw [show 2 * (k + 1) = 2 * k + 1 + 1 by omega, runUnder_succ_next h, h1]
    rfl

/-- Both clauses, under `fillerFed`: at every turn of the PARSER a filler byte is buffered. -/
theorem witness_EndlessAppendsNeverReturn :
    ((fed []).run = .running ∧ (∀ n, hostMove (fillerFed n) = false) ∧
      ∀ n t, runUnder fillerFed n (fed []) = .next t → fillerFed n = .parser → awaitsBytes t.rx = false) ∧
    ((fed []).run = .running ∧ (fed []).rx = [] ∧ ∀ _ : Nat, legalLength 0xB5#8 = false) := by
  refine ⟨⟨rfl, fun n => ?_, fun n t h hp => ?_⟩, rfl, rfl, fun _ => by decide⟩
  · unfold fillerFed feeding
    split <;> rfl
  · obtain ⟨k, rfl | rfl⟩ : ∃ k, n = 2 * k ∨ n = 2 * k + 1 := ⟨n / 2, by omega⟩
    · simp [fillerFed, feeding] at hp
    · have h' := runUnder_succ_next (fillerFed_pairs k)
      rw [show fillerFed (2 * k) = .append 0xB5#8 by simp [fillerFed, feeding], h] at h'
      cases h'
      rfl

/-- A tick and two turns of the PARSER, for ever. -/
def tickAndParse : Schedule := fun n => if n % 3 = 0 then .tick else .parser

/-- The state after the first three turns from one buffered filler byte. -/
def drained : State := { waiting [] [] with pos := 1, len := 0xB5#8 }

theorem tickAndParse_rounds (k : Nat) : runUnder tickAndParse (3 * k + 3) (waiting [] [0xB5#8]) = .next drained := by
  induction k with
  | zero => rfl
  | succ k ih =>
    have h0 : tickAndParse (3 * k + 3) = .tick := by simp [tickAndParse]
    have h1 : tickAndParse (3 * k + 3 + 1) = .parser := by simp [tickAndParse]; omega
    have h2 : tickAndParse (3 * k + 3 + 1 + 1) = .parser := by simp [tickAndParse]; omega
    have h := runUnder_succ_next ih
    rw [h0] at h
    have h' := runUnder_succ_next (t := { drained with run := .running }) h
    rw [h1] at h'
    rw [show 3 * (k + 1) + 3 = 3 * k + 3 + 1 + 1 + 1 by omega, runUnder_succ_next (t := drained) h', h2]
    rfl

/-- A filler byte buffered while HALTED, at turn 0: the first operation is made in the invocation that the tick starts. -/
theorem witness_TicksAgainExamineEveryByte :
    Schedule.admissible tickAndParse (waiting [] [0xB5#8]) ∧
      Schedule.hostTicksAgain tickAndParse (waiting [] [0xB5#8]) ∧ Schedule.parserGoesOn tickAndParse ∧
      (∀ k, tickAndParse k ≠ .reset) ∧ runUnder tickAndParse 0 (waiting [] [0xB5#8]) = .next (waiting [] [0xB5#8]) ∧
      ((parse (waiting [] [0xB5#8]).rx).1.map Parsed.size).sum = 1 := by
  refine ⟨fun n => ?_, fun n _ _ _ => ⟨3 * n, by omega, by simp [tickAndParse]⟩,
    fun n => ⟨3 * n + 1, by omega, by simp [tickAndParse]⟩, fun k => ?_, rfl, by decide⟩
  · obtain ⟨k, h⟩ : ∃ k, n = 3 * k ∨ n = 3 * k + 1 ∨ n = 3 * k + 2 := ⟨n / 3, by omega⟩
    have stop : ∀ m, (∃ t, runUnder tickAndParse (m + 1) (waiting [] [0xB5#8]) = .next t) →
        ∃ t, runUnder tickAndParse m (waiting [] [0xB5#8]) = .next t := fun m ⟨_, h⟩ =>
      let ⟨t, ht, _⟩ := runUnder_succ_inv h
      ⟨t, ht⟩
    have h3 := stop _ ⟨_, tickAndParse_rounds k⟩
    have h2 := stop _ h3
    have h1 := stop _ h2
    rcases h with rfl | rfl | rfl
    · exact h1
    · exact h2
    · exact h3
  · unfold tickAndParse
    split <;> exact fun h => by cases h

end Sys2Proof.Tests
end

/-! The obligations about the frame buffer's reads (20_memory.md). -/

namespace Sys2Proof.Machine

/-- Settles O9: the two-cell read and the four-cell read are the big-endian numbers of their cells. -/
theorem memReadIsBigEndian : Obligations.MemReadIsBigEndian :=
  ⟨memRead2_toNat, memRead4_toNat⟩

end Sys2Proof.Machine

/-! The obligation about the head byte's classes (30_encoding.md R51). Format LEN's decoder is inverted once: an operation
is decoded exactly from its own selecting byte, so each class reads off the range of its operand. -/

namespace Sys2Proof

theorem legalLength_iff (b : Byte) : legalLength b = true ↔ 1 ≤ b.toNat ∧ b.toNat ≤ 0x2F := by
  have hmax : Config.maxMsgLength = 0x30 := rfl
  simp only [legalLength, Bool.and_eq_true, decide_eq_true_eq]
  omega

theorem overlenByte_iff (b : Byte) : overlenByte b = true ↔ 0x30 ≤ b.toNat ∧ b.toNat ≠ 0xB5 := by
  simp only [overlenByte, Bool.and_eq_true, decide_eq_true_eq, bne_iff_ne]
  exact and_congr_right' (by simp [Config.busyByte, BitVec.toNat_eq])

/-- What format LEN decodes a byte to is an operation of that format, well-formed, and selected by that byte
(30_encoding.md R51). -/
theorem decodeLen_spec (b : Byte) :
    (decodeLen b).format = .len ∧ (decodeLen b).wf = true ∧ selector (decodeLen b) = b := by
  rcases headByte_cases b with rfl | rfl | hover | hlegal
  · decide
  · decide
  · rw [decodeLen_overlen hover]
    exact ⟨rfl, hover, rfl⟩
  · rw [decodeLen_frame hlegal]
    exact ⟨rfl, hlegal, rfl⟩

/-- A well-formed operation of format LEN is decoded from the byte that selects it. -/
theorem decodeLen_selector {i : Instr} (hformat : i.format = .len) (hwf : i.wf = true) :
    decodeLen (selector i) = i := by
  cases i with
  | dropZero => exact decodeLen_zero
  | dropFiller => exact decodeLen_filler
  | dropOverlen b => exact decodeLen_overlen hwf
  | frame L => exact decodeLen_frame hwf
  | msgVoltage | msgCurrent | msgPower | msgEnergy | msgUnknown => cases hformat

theorem decodeLen_eq_iff (b : Byte) (i : Instr) :
    decodeLen b = i ↔ i.format = .len ∧ i.wf = true ∧ selector i = b := by
  constructor
  · rintro rfl
    exact decodeLen_spec b
  · rintro ⟨hformat, hwf, rfl⟩
    exact decodeLen_selector hformat hwf

end Sys2Proof

namespace Sys2Proof.Machine

theorem fetch_of_rx_cons {s : State} {b : Byte} {rest : List Byte} (hrx : s.rx = b :: rest) :
    fetch s = some (decodeLen b) := by
  simp [fetch, rxPeek, hrx]

/-- With a byte at the head of the stream, the fetch gives the well-formed operation of format LEN that the byte
selects. -/
theorem fetch_eq_some_iff {s : State} {b : Byte} {rest : List Byte} (hrx : s.rx = b :: rest) (i : Instr) :
    fetch s = some i ↔ i.format = .len ∧ i.wf = true ∧ selector i = b := by
  rw [fetch_of_rx_cons hrx, Option.some_inj, decodeLen_eq_iff]

/-- Settles O3: each class is the range of head bytes for which its operation is well-formed and selected. -/
theorem headByteClasses : Obligations.HeadByteClasses := by
  intro s L rest hrx
  simp only [fetch_eq_some_iff hrx]
  refine ⟨?zero, ?frame, ?overlen, ?filler⟩
  case zero | filler => simp [Instr.format, Instr.wf, selector, BitVec.toNat_eq, eq_comm]
  case frame => simp [Instr.format, Instr.wf, selector, legalLength_iff]
  case overlen => simp [Instr.format, Instr.wf, selector, overlenByte_iff]

end Sys2Proof.Machine

/-! Facts that the obligations about the stream-level operations (40_stream_ops.md) rest on: what an operation that
takes bytes off the stream leaves as it was, one rule per state operation, and the head byte that selects an
operation. -/

namespace Sys2Proof.Machine

theorem exec_dropZero (s : State) : exec .dropZero s = dropOne 0x00#8 (raise .noiseByte) s := rfl

theorem exec_dropFiller (s : State) : exec .dropFiller s = dropOne Config.busyByte (fun _ t => t) s := rfl

theorem exec_dropOverlen (L : Byte) (s : State) : exec (.dropOverlen L) s = dropOne L (raise .noiseByte) s := rfl

/-- An operation is fetched exactly when it is a well-formed one of format LEN and its selecting byte is at the head of
the stream. -/
theorem fetch_eq_some_iff_head (s : State) (i : Instr) :
    fetch s = some i ↔ i.format = .len ∧ i.wf = true ∧ s.rx.head? = some (selector i) := by
  cases hrx : s.rx with
  | nil => simp [fetch, rxPeek, hrx]
  | cons b rest => rw [fetch_eq_some_iff hrx, List.head?_cons, Option.some_inj, eq_comm (a := b)]

theorem SameRegisters.trans {s t u : State} (h : SameRegisters s t) (h' : SameRegisters t u) : SameRegisters s u :=
  ⟨h'.v.trans h.v, h'.i.trans h.i, h'.p.trans h.p, h'.e.trans h.e, h'.bind.trans h.bind⟩

theorem SameCells.trans {s t u : State} (h : SameCells s t) (h' : SameCells t u) : SameCells s u :=
  fun offset => (h' offset).trans (h offset)

/-- From `s` to `t` the first `n` bytes have left the stream and the events `new` were logged. Nothing else differs,
the frame buffer and the length latch left out. -/
structure Advances (n : Nat) (new : List Diag) (s t : State) : Prop where
  rx : t.rx = s.rx.drop n
  pos : t.pos = s.pos + n
  diag : t.diag = s.diag ++ new
  sink : t.sink = s.sink
  run : t.run = s.run
  registers : SameRegisters s t
  draws : t.draws = s.draws
  sched : t.sched = s.sched

theorem advances_refl (s : State) : Advances 0 [] s s :=
  ⟨rfl, rfl, (List.append_nil _).symm, rfl, rfl, ⟨rfl, rfl, rfl, rfl, rfl⟩, rfl, rfl⟩

/-- The latch of the head byte, then `RxRead(n)`. -/
theorem advances_consume_latch (n : Nat) (b : Byte) (s : State) : Advances n [] s (consume n (latch b s)) :=
  ⟨rfl, rfl, (List.append_nil _).symm, rfl, rfl, ⟨rfl, rfl, rfl, rfl, rfl⟩, rfl, rfl⟩

namespace Advances

variable {m n : Nat} {new new' : List Diag} {s t u : State}

theorem trans (h : Advances m new s t) (h' : Advances n new' t u) : Advances (m + n) (new ++ new') s u where
  rx := by rw [h'.rx, h.rx, List.drop_drop]
  pos := by rw [h'.pos, h.pos, Nat.add_assoc]
  diag := by rw [h'.diag, h.diag, List.append_assoc]
  sink := h'.sink.trans h.sink
  run := h'.run.trans h.run
  registers := h.registers.trans h'.registers
  draws := h'.draws.trans h.draws
  sched := h'.sched.trans h.sched

theorem after_raise (h : Advances n new s t) (c : Cause) (recorded : List Byte) :
    Advances n (new ++ c.events recorded) s (raise c recorded t) :=
  { h with diag := by rw [raise_diag, h.diag, List.append_assoc], registers := { h.registers with } }

theorem after_loadFrame (h : Advances n new s t) (bytes : List Byte) : Advances n new s (loadFrame bytes t) :=
  { h with registers := { h.registers with } }

theorem after_discardFrame (h : Advances n new s t) : Advances n new s (discardFrame t) :=
  { h with registers := { h.registers with } }

end Advances

/-- A noisy drop: one byte gone and reported, every cell as it was (40_stream_ops.md R73, R75). -/
theorem dropOne_noisy {s : State} {b : Byte} {rest : List Byte} (hrx : s.rx = b :: rest) :
    ∃ t, dropOne b (raise .noiseByte) s = .next t ∧ Advances 1 [⟨.noiseByte, .info, .bytes [b]⟩] s t ∧
      SameCells s t :=
  ⟨_, dropOne_cons _ _ hrx, (advances_consume_latch 1 b s).after_raise .noiseByte [b], fun _ => rfl⟩

/-- A run over `n` zero bytes at the head of the stream, an operation and an event for each (40_stream_ops.md R73). -/
theorem runFor_zeros (n : Nat) {s : State} {rest : List Byte} (hrun : s.run = .running) (hsched : s.sched = [])
    (hrx : s.rx = List.replicate n 0x00#8 ++ rest) :
    ∃ t, runFor n s = .next t ∧ Advances n (List.replicate n ⟨.noiseByte, .info, .bytes [0x00#8]⟩) s t ∧
      SameCells s t := by
  induction n generalizing s with
  | zero => exact ⟨s, rfl, advances_refl s, fun _ => rfl⟩
  | succ n ih =>
    have hhead : s.rx = 0x00#8 :: (List.replicate n 0x00#8 ++ rest) := hrx
    obtain ⟨t, hdrop, hst, hcells⟩ := dropOne_noisy hhead
    have hstep : step s = .next t := by
      rw [step_nil hsched, parserStep_exec hrun hhead, decodeLen_zero, exec_dropZero, hdrop]
    obtain ⟨u, hruns, htu, hcells'⟩ :=
      ih (hst.run.trans hrun) (hst.sched.trans hsched) (by rw [hst.rx, hhead, List.drop_one, List.tail_cons])
    refine ⟨u, by rw [runFor_succ_next n hstep, hruns], ?_, hcells.trans hcells'⟩
    rw [Nat.add_comm n 1, List.replicate_add]
    exact hst.trans htu

/-- Settles O10: one zero byte is one noisy drop, and a run of zero bytes is by induction as many. -/
theorem dropZeroResult : Obligations.DropZeroResult := by
  refine ⟨fun s rest hrx => ?effect, fun s => ?selected, fun s n rest hrun hsched hrx => ?zeros⟩
  case effect =>
    obtain ⟨t, hdrop, h, hcells⟩ := dropOne_noisy hrx
    exact ⟨t, (exec_dropZero s).trans hdrop, by simp [h.rx, hrx], h.pos, h.diag, h.sink, h.run, h.registers, hcells,
      h.draws, h.sched⟩
  case selected => simp [fetch_eq_some_iff_head, Instr.format, Instr.wf, selector]
  case zeros =>
    obtain ⟨t, hruns, h, hcells⟩ := runFor_zeros n hrun hsched hrx
    exact ⟨t, hruns, by simp [h.rx, hrx], h.pos, h.diag, h.sink, h.run.trans hrun, h.registers, hcells⟩

/-- Settles O11: the filler byte is dropped with no event. -/
theorem dropFillerResult : Obligations.DropFillerResult := by
  refine ⟨fun s rest hrx => ?effect, fun s => ?selected⟩
  case effect =>
    have hexec := (exec_dropFiller s).trans (dropOne_cons _ _ hrx)
    have h := advances_consume_latch 1 Config.busyByte s
    exact ⟨_, hexec, by simp [hrx], h.pos, rfl, h.sink, h.run, h.registers, fun _ => rfl, h.draws, h.sched⟩
  case selected => simp [fetch_eq_some_iff_head, Instr.format, Instr.wf, selector]

/-- Settles O12: an overlong head byte is one noisy drop, selected by the range of the operand. -/
theorem dropOverlenResult : Obligations.DropOverlenResult := by
  refine ⟨fun s L rest _ _ hrx => ?effect, fun s L => ?selected, by decide⟩
  case effect =>
    obtain ⟨t, hdrop, h, hcells⟩ := dropOne_noisy hrx
    exact ⟨t, (exec_dropOverlen L s).trans hdrop, by simp [h.rx, hrx], h.pos, h.diag, h.sink, h.run, h.registers, hcells,
      h.draws, h.sched⟩
  case selected => simp [fetch_eq_some_iff_head, Instr.format, Instr.wf, selector, overlenByte_iff, and_comm]

/-! ### FRAME -/

/-- FRAME's load takes `L + 2` bytes off the stream and logs nothing (40_stream_ops.md R78). -/
theorem advances_loaded (L : Byte) (s : State) : Advances (L.toNat + 2) [] s (loaded L s) :=
  (advances_consume_latch (L.toNat + 2) L s).after_loadFrame _

/-- FRAME with a byte missing (40_stream_ops.md R77). -/
theorem exec_frame_starved {s : State} {L : Byte} (hshort : s.rx.length < L.toNat + 2) :
    exec (.frame L) s = .next (halt (latch L s)) :=
  execFrame_starved hshort

/-- FRAME of a legal length with its bytes buffered (40_stream_ops.md R78). -/
theorem exec_frame_loaded {s : State} {L : Byte} (hL : L.toNat ≤ 47) (hlen : L.toNat + 2 ≤ s.rx.length) :
    exec (.frame L) s = endFrame (checkAndDispatch (loaded L s)) :=
  execFrame_loaded hlen (Nat.add_le_add_right hL 2)

theorem loaded_eofOk_iff (L : Byte) (s : State) :
    eofOk (loaded L s) = true ↔ s.rx[L.toNat + 1]? = some 0xC0#8 := by
  simp [loaded_eofOk, Config.eof]

theorem loaded_checksumOk_iff (L : Byte) (s : State) :
    checksumOk (loaded L s) = true ↔ s.rx[L.toNat]? = some (sum8 ((s.rx.take L.toNat).drop 1)) := by
  simp [loaded_checksumOk, List.take_take]

/-- Settles O14: a starved FRAME latches its length and returns. -/
theorem frameStarvedResult : Obligations.FrameStarvedResult := by
  intro s L rest hpos hmax hrx hshort
  refine ⟨by omega, halt (latch L s), exec_frame_starved hshort, rfl, rfl, rfl, rfl, rfl, ⟨rfl, rfl, rfl, rfl, rfl⟩,
    fun _ => rfl, rfl, rfl, ?_⟩
  rw [fetch_of_rx_cons (s := halt (latch L s)) hrx, decodeLen_frame ((legalLength_iff L).2 ⟨hpos, hmax⟩)]

/-- Settles O15: the checks run on the loaded state. -/
theorem frameLoadResult : Obligations.FrameLoadResult := by
  intro s L _ hmax hlen
  have h := advances_loaded L s
  refine ⟨loaded L s, exec_frame_loaded hmax hlen, h.pos, h.rx, fun a ha => ?_, fun a ha => ?_, rfl, rfl, h.sink, h.run,
    h.registers, h.draws, h.sched⟩
  · rw [loaded_get, List.getElem?_take_of_lt (by omega)]
  · rw [loaded_get, List.getElem?_take_eq_none ha]

/-- Settles O16: the EOF check fails on the loaded bytes, before the checksum is looked at. -/
theorem frameBadEofResult : Obligations.FrameBadEofResult := by
  intro s L frame rest _ hmax hflen _ heof hrx
  have hlen : L.toNat + 2 ≤ s.rx.length := by rw [hrx, List.length_append]; omega
  have htaken : s.rx.take (L.toNat + 2) = frame := by rw [hrx, ← hflen, List.take_left]
  have hbad : eofOk (loaded L s) = false := by
    rw [loaded_eofOk, htaken]
    exact beq_false_of_ne heof
  have hexec : exec (.frame L) s = .next (discardFrame (raise .badEof frame (loaded L s))) := by
    rw [exec_frame_loaded hmax hlen, checkAndDispatch, if_pos hbad, loaded_frame, htaken, endFrame]
  have h := ((advances_loaded L s).after_raise .badEof frame).after_discardFrame
  exact ⟨_, hexec, by rw [h.rx, hrx, ← hflen, List.drop_left], h.pos, h.diag, h.sink, h.run, h.registers, fun _ => rfl,
    h.draws, h.sched⟩

/-- Every message operation leaves `run` alone and logs one event, the summary of an apply or the dump of an unknown
type (41_message_decode.md R91 to R95). -/
theorem dispatch_logs_one (T : Byte) (s : State) :
    ∃ t d, dispatch T s = .next t ∧ t.run = s.run ∧ t.diag = s.diag ++ [d] ∧
      (d.cause = .summary ∨ d.cause = .unknownType) := by
  rcases dispatch_cases T s with ⟨-, h⟩ | ⟨-, h⟩ | ⟨-, h⟩ | ⟨-, h⟩ | ⟨-, h⟩
  · rw [applyVoltage_eq] at h
    exact ⟨_, _, h, rfl, rfl, .inl rfl⟩
  · rw [applyCurrent_eq] at h
    exact ⟨_, _, h, rfl, rfl, .inl rfl⟩
  · rw [applyPower_eq] at h
    exact ⟨_, _, h, rfl, rfl, .inl rfl⟩
  · rw [applyEnergy_eq] at h
    exact ⟨_, _, h, rfl, rfl, .inl rfl⟩
  · exact ⟨_, _, h, rfl, rfl, .inr rfl⟩

/-- The checks and the dispatch leave `run` alone and add events, whose causes tell the outcome
(40_stream_ops.md R76, R79 to R81). -/
theorem checkAndDispatch_causes (s : State) :
    ∃ t new, checkAndDispatch s = .next t ∧ t.run = s.run ∧ t.diag = s.diag ++ new ∧ new ≠ [] ∧
      ((∃ d ∈ new, d.cause = .badEof) ↔ eofOk s = false) ∧
      ((∃ d ∈ new, d.cause = .badChecksum) ↔ eofOk s = true ∧ checksumOk s = false) ∧
      ((∃ d ∈ new, d.cause = .summary ∨ d.cause = .unknownType) ↔ eofOk s = true ∧ checksumOk s = true) := by
  rcases checkAndDispatch_cases s with ⟨heof, h⟩ | ⟨heof, hsum, h⟩ | ⟨heof, hsum, h⟩
  · exact ⟨_, _, h, rfl, rfl, by simp [heof, Cause.events]⟩
  · exact ⟨_, _, h, rfl, rfl, by simp [heof, hsum, Cause.events]⟩
  · obtain ⟨t, d, hnext, hrun, hdiag, hcause⟩ := dispatch_logs_one (typeByte s) s
    refine ⟨t, [d], h.trans hnext, hrun, hdiag, ?_⟩
    rcases hcause with hcause | hcause <;> simp [heof, hsum, hcause]

/-- A well-formed frame has the bytes that its length byte asks for. -/
theorem isFrame_length {b : Byte} {tail : List Byte} (h : isFrame (b :: tail) = true) :
    (b :: tail).length = b.toNat + 2 := by
  simp only [isFrame, Bool.and_eq_true, beq_iff_eq] at h
  obtain ⟨⟨⟨-, hlen⟩, -⟩, -⟩ := h
  exact hlen

/-- Settles O19: STARVED is split off by the number of bytes buffered; of a loaded frame the two checks decide. -/
theorem frameOutcomesExclusive : Obligations.FrameOutcomesExclusive := by
  intro s L rest hpos hmax hrun hrx
  rcases Nat.lt_or_ge s.rx.length (L.toNat + 2) with hshort | hlen
  · have hnot : ¬ L.toNat + 2 ≤ s.rx.length := by omega
    have hframe : isFrame (s.rx.take (L.toNat + 2)) ≠ true := by
      rw [List.take_of_length_le hshort.le]
      intro h
      rw [hrx] at h hshort
      exact hshort.ne (isFrame_length h)
    exact ⟨halt (latch L s), [], exec_frame_starved hshort, by simp [hshort, hnot, hframe]⟩
  · have hnot : ¬ s.rx.length < L.toNat + 2 := by omega
    have hframe := isFrame_taken hrx ((legalLength_iff L).2 ⟨hpos, hmax⟩) hlen
    obtain ⟨t, new, hcheck, hrun', hdiag, hnew, heof, hsum, hacc⟩ := checkAndDispatch_causes (loaded L s)
    refine ⟨discardFrame t, new, by rw [exec_frame_loaded hmax hlen, hcheck, endFrame], hdiag, ?_, ?_, ?_, ?_, ?_⟩
    · simp [hrun', hrun, hnot]
    · simp [hnew, hnot]
    · rw [heof, Ne, ← loaded_eofOk_iff]
      simp [hlen]
    · rw [hsum, Ne, ← loaded_eofOk_iff, ← loaded_checksumOk_iff]
      simp [hlen]
    · rw [hacc, hframe, Bool.and_eq_true]

/-! ### IDLE -/

/-- The PARSER's turn with no byte available (40_stream_ops.md R71). -/
theorem step_parser_idle {s : State} {moves : List Move} (hsched : s.sched = .parser :: moves)
    (hrun : s.run = .running) (hrx : s.rx = []) :
    step s = .next { s with run := .halted, sched := moves } := by
  rw [step_cons hsched, takeTurn_eq hsched]
  exact parserStep_idle (s := { s with sched := moves }) hrun hrx

theorem step_append {s : State} {b : Byte} {moves : List Move} (hsched : s.sched = .append b :: moves) :
    step s = .next { s with rx := s.rx ++ [b], sched := moves } := by
  rw [step_cons hsched, takeTurn_eq hsched]
  rfl

theorem step_tick {s : State} {moves : List Move} (hsched : s.sched = .tick :: moves) (hrun : s.run = .halted) :
    step s = .next { s with run := .running, sched := moves } := by
  rw [step_cons hsched, takeTurn_eq hsched]
  simp [moveStep, hostTick, hrun]

/-- Settles O32: the turns of IDLE, the append and the tick, one after another. -/
theorem idleReturns : Obligations.IdleReturns := by
  refine ⟨fun s hrun hrx hsched => ?idle, fun s b moves hrun hrx hsched => ?kept, fun s moves hrun hrx hsched => ?empty⟩
  case idle =>
    rw [step_nil hsched, parserStep_idle hrun hrx]
    rfl
  case kept =>
    rw [runFor_succ_next 2 (step_parser_idle hsched hrun hrx), runFor_succ_next 1 (step_append rfl),
      runFor_succ_next 0 (step_tick rfl rfl), runFor_zero, hrun, hrx, List.nil_append]
  case empty =>
    have hidle : step { s with run := .running, sched := .parser :: moves } =
        .next { s with run := .halted, sched := moves } := step_parser_idle rfl rfl hrx
    rw [runFor_succ_next 1 (step_tick hsched hrun), runFor_succ_next 0 hidle, runFor_zero, hrun]

end Sys2Proof.Machine

/-! The obligations about the message-level operations (41_message_decode.md): the dispatch on the type byte, and the
result of each operation, which is a decoder's record handed to its apply. -/

namespace Sys2Proof

theorem recognisedType_eq_false_iff (t : Byte) :
    recognisedType t = false ↔ t ≠ 0x0D#8 ∧ t ≠ 0x0E#8 ∧ t ≠ 0x0F#8 ∧ t ≠ 0x10#8 := by
  simp [recognisedType, Config.tVoltage, Config.tCurrent, Config.tPower, Config.tEnergy, and_assoc]

end Sys2Proof

namespace Sys2Proof.Machine

/-- Settles O4: dispatch is `exec` of what format MSG decodes, and each clause is the class of its type byte. -/
theorem typeByteDispatch : Obligations.TypeByteDispatch := by
  intro T s
  have hdecoded := dispatch_eq_exec T s
  refine ⟨?voltage, ?current, ?power, ?energy, fun hV hI hP hE => ?unknown, hdecoded⟩
  case voltage | current | power | energy =>
    rintro rfl
    exact hdecoded
  case unknown =>
    rw [hdecoded, decodeMsg_unknown ((recognisedType_eq_false_iff T).2 ⟨hV, hI, hP, hE⟩)]

/-! ### The operations as decode and apply -/

theorem exec_msgVoltage (s : State) : exec .msgVoltage s = .next (applyVoltage (decodeVoltage s) (nextDraw s)) := rfl

theorem exec_msgCurrent (s : State) : exec .msgCurrent s = .next (applyCurrent (decodeCurrent s) (nextDraw s)) := rfl

theorem exec_msgPower (s : State) : exec .msgPower s = .next (applyPower (decodePower s) (nextDraw s)) := rfl

theorem exec_msgEnergy (s : State) : exec .msgEnergy s = .next (applyEnergy (decodeEnergy s) (nextDraw s)) := rfl

theorem exec_msgUnknown (T : Byte) (s : State) :
    exec (.msgUnknown T) s = .next (raise .unknownType s.fb.frame s) := rfl

/-! ### The lanes of the decoded records -/

theorem decodeCurrent_get_toNat (s : State) (k : Slot) :
    ((decodeCurrent s).get k).toNat = big16 (cellsOf s) (2 + 2 * k.val) := by
  rw [decodeCurrent, Slots.get_ofFn, field16_toNat]

theorem decodePower_get_toNat (s : State) (k : Slot) :
    ((decodePower s).get k).toNat = big32 (cellsOf s) (2 + 4 * k.val) := by
  rw [decodePower, Slots.get_ofFn, field32_toNat]

theorem decodeEnergy_get_toNat (s : State) (k : Slot) :
    ((decodeEnergy s).get k).toNat = big32 (cellsOf s) (2 + 4 * k.val) := by
  rw [decodeEnergy, Slots.get_ofFn, field32_toNat]

/-! ### The integrator -/

theorem accumulate_get_of_lt {e : Slots 64} {d : Slots 32} {k : Slot}
    (hfits : (e.get k).toNat + (d.get k).toNat < 2 ^ 64) :
    ((accumulate e d).get k).toNat = (e.get k).toNat + (d.get k).toNat := by
  rw [accumulate_toNat, Nat.mod_eq_of_lt hfits]

theorem accumulate_get_of_zero {e : Slots 64} {d : Slots 32} {k : Slot} (hzero : d.get k = 0#32) :
    (accumulate e d).get k = e.get k := by
  rw [accumulate, Slots.get_ofFn, hzero, BitVec.setWidth_zero, BitVec.add_zero]

/-! ### The canonical buffer -/

theorem Memory.get_cons (c : Host.Cell) (m : Memory) (a : Nat) :
    Memory.get (c :: m) a = if c.1 = a then some c.2 else Memory.get m a := rfl

/-- The entries of a buffer with rising offsets are its specified cells. -/
theorem Memory.mem_iff_get {m : Memory} (hrising : (m.map Prod.fst).Pairwise (· < ·)) (c : Host.Cell) :
    c ∈ m ↔ m.get c.1 = some c.2 := by
  induction m with
  | nil => simp
  | cons first rest ih =>
    obtain ⟨hafter, hrest⟩ := List.pairwise_cons.1 hrising
    rw [List.mem_cons, Memory.get_cons, ih hrest]
    by_cases hoffset : first.1 = c.1
    · have hnotin : c ∉ rest := fun hc => (hafter c.1 (List.mem_map_of_mem hc)).ne hoffset
      rw [← ih hrest, if_pos hoffset, Option.some_inj, Prod.ext_iff]
      simp [hnotin, hoffset, eq_comm]
    · have hne : c ≠ first := fun h => hoffset (congrArg Prod.fst h.symm)
      simp [hne, hoffset]

/-- The canonical form is one list per buffer: rising offsets and equal cells make equal lists. -/
theorem Memory.eq_of_get {m m' : Memory} (hm : (m.map Prod.fst).Pairwise (· < ·))
    (hm' : (m'.map Prod.fst).Pairwise (· < ·)) (hget : ∀ a, m.get a = m'.get a) : m = m' := by
  have hmem : ∀ c, c ∈ m ↔ c ∈ m' := fun c => by
    rw [Memory.mem_iff_get hm, Memory.mem_iff_get hm', hget]
  have : Std.Irrefl fun c c' : Host.Cell => c.1 < c'.1 := ⟨fun c => lt_irrefl c.1⟩
  have : Std.Antisymm fun c c' : Host.Cell => c.1 < c'.1 := ⟨fun _ _ h h' => absurd h' h.asymm⟩
  exact (List.pairwise_map.1 hm).eq_of_mem_iff (List.pairwise_map.1 hm') hmem

/-- The dump of a canonical buffer that holds exactly a frame is that frame (41_message_decode.md R95). -/
theorem Memory.frame_eq_of_get {m : Memory} {frame : List Byte} (hwf : m.wf = true)
    (hget : ∀ a, m.get a = frame[a]?) : m.frame = frame := by
  have hrising : (m.map Prod.fst).Pairwise (· < ·) := by
    simp only [Memory.wf, Bool.and_eq_true, decide_eq_true_eq] at hwf
    exact hwf.1
  rw [Memory.eq_of_get hrising (Memory.ofBytes_rising 0 frame) fun a => by rw [hget, Memory.get_ofBytes],
    Memory.frame_ofBytes]

/-! ### The results -/

/-- Settles O21: the two cells at offset 2 are the record, and its apply writes `V` alone. -/
theorem msgVoltageResult : Obligations.MsgVoltageResult := by
  intro s
  have hexec := exec_msgVoltage s
  rw [applyVoltage_eq] at hexec
  exact ⟨_, cellsOf s, hexec, cellsOf_reads s, decodeVoltage_toNat s, rfl, rfl, rfl, rfl, rfl, rfl,
    ⟨rfl, rfl, rfl, rfl, rfl⟩, fun _ => rfl⟩

/-- Settles O22: each lane is its own two cells, and the apply of the record writes `I` alone. -/
theorem msgCurrentResult : Obligations.MsgCurrentResult := by
  intro s
  have hexec := exec_msgCurrent s
  rw [applyCurrent_eq] at hexec
  exact ⟨_, cellsOf s, hexec, cellsOf_reads s, decodeCurrent_get_toNat s, rfl, rfl, rfl, rfl, rfl, rfl,
    ⟨rfl, rfl, rfl, rfl, rfl⟩, fun _ => rfl⟩

/-- Settles O23: each lane is its own four cells, and the apply of the record writes `P` alone. -/
theorem msgPowerResult : Obligations.MsgPowerResult := by
  intro s
  have hexec := exec_msgPower s
  rw [applyPower_eq] at hexec
  exact ⟨_, cellsOf s, hexec, cellsOf_reads s, decodePower_get_toNat s, rfl, rfl, rfl, rfl, rfl, rfl,
    ⟨rfl, rfl, rfl, rfl, rfl⟩, fun _ => rfl⟩

/-- Settles O57: the apply of the six deltas writes `E` alone, by sums that are exact below 2^64. -/
theorem msgEnergyExactResult : Obligations.MsgEnergyExactResult := by
  intro s
  have hexec := exec_msgEnergy s
  rw [applyEnergy_eq] at hexec
  exact ⟨_, cellsOf s, decodeEnergy s, hexec, cellsOf_reads s, decodeEnergy_get_toNat s,
    fun _ => accumulate_get_of_lt, fun _ => accumulate_get_of_zero, rfl, rfl, rfl, rfl, rfl, rfl,
    ⟨rfl, rfl, rfl, rfl, rfl⟩, fun _ => rfl⟩

/-- Settles O25: the one event is the dump of the buffer, which a canonical buffer determines by its cells. -/
theorem msgUnknownResult : Obligations.MsgUnknownResult := by
  intro s T
  exact ⟨_, s.fb.frame, exec_msgUnknown T s, rfl, fun _ => Memory.frame_eq_of_get, rfl, ⟨rfl, rfl, rfl, rfl, rfl⟩,
    ⟨rfl, rfl, rfl, rfl, rfl⟩, fun _ => rfl, rfl⟩

end Sys2Proof.Machine

/-! The obligation about `BIND` (42_apply_publish.md R112). Every turn but the HOST's rebinding and reset goes on the
same way whatever `BIND` and SINK are: `BIND` only selects the events that are added to SINK. Turns of this kind
compose, so runs are of it too. -/

namespace Sys2Proof.Machine

/-- The state under another `BIND` and with another SINK trace. -/
def rebound (bind : BitVec 16) (sink : List Publish) (s : State) : State :=
  { s with bind := bind, sink := sink }

/-- Whatever `BIND` and SINK are, `f` goes on from `s` to the same state but for these two: it leaves `BIND` alone and
adds to SINK events that `BIND` selects, none where nothing is bound. -/
def BindOnlySelects (f : State → Host.Outcome State Fault Refusal) (s : State) : Prop :=
  ∃ (events : BitVec 16 → List Publish) (t : State), events 0#16 = [] ∧
    ∀ bind sink, f (rebound bind sink s) = .next (rebound bind (sink ++ events bind) t)

theorem slotEvents_unbound {w : Nat} (sink : SubChannel → SinkId) (first den : Nat) (regs : Slots w) :
    slotEvents sink first den 0#16 regs = [] := by
  simp [slotEvents]

namespace BindOnlySelects

variable {f g : State → Host.Outcome State Fault Refusal} {s t : State}

/-- An answer that neither reads `BIND` nor publishes. -/
theorem of_silent (t : State)
    (h : ∀ bind sink, f (rebound bind sink s) = .next (rebound bind sink t)) : BindOnlySelects f s :=
  ⟨fun _ => [], t, rfl, fun bind sink => by rw [h, List.append_nil]⟩

theorem of_eq (hg : BindOnlySelects g t) (h : ∀ bind sink, f (rebound bind sink s) = g (rebound bind sink t)) :
    BindOnlySelects f s := by
  obtain ⟨events, u, hnone, hnext⟩ := hg
  exact ⟨events, u, hnone, fun bind sink => (h bind sink).trans (hnext bind sink)⟩

theorem after_endFrame (h : BindOnlySelects f s) : BindOnlySelects (fun s => endFrame (f s)) s := by
  obtain ⟨events, t, hnone, hnext⟩ := h
  exact ⟨events, discardFrame t, hnone, fun bind sink => congrArg endFrame (hnext bind sink)⟩

/-- The events that the answer from `s` itself adds, and from it the answers under every other `BIND`. -/
theorem elim (h : BindOnlySelects f s) (hs : f s = .next t) :
    ∃ events : BitVec 16 → List Publish, events 0#16 = [] ∧ t.sink = s.sink ++ events s.bind ∧
      ∀ bind sink, f (rebound bind sink s) = .next (rebound bind (sink ++ events bind) t) := by
  obtain ⟨events, u, hnone, hnext⟩ := h
  obtain rfl : t = rebound s.bind (s.sink ++ events s.bind) u :=
    Host.Outcome.next.inj (hs.symm.trans (hnext s.bind s.sink))
  exact ⟨events, hnone, rfl, hnext⟩

end BindOnlySelects

/-! ### The operations -/

theorem applyVoltage_rebound (v bind : BitVec 16) (sink : List Publish) (s : State) :
    applyVoltage v (rebound bind sink s) =
      rebound bind (sink ++ if bind.getLsbD 0 then [⟨.volt, v.toNat, 100⟩] else []) (applyVoltage v s) := by
  simp only [applyVoltage_eq, rebound]

theorem applyCurrent_rebound (c : Slots 16) (bind : BitVec 16) (sink : List Publish) (s : State) :
    applyCurrent c (rebound bind sink s) = rebound bind (sink ++ slotEvents .cur 1 100 bind c) (applyCurrent c s) := by
  simp only [applyCurrent_eq, rebound]

theorem applyPower_rebound (p : Slots 32) (bind : BitVec 16) (sink : List Publish) (s : State) :
    applyPower p (rebound bind sink s) = rebound bind (sink ++ slotEvents .pow 6 1 bind p) (applyPower p s) := by
  simp only [applyPower_eq, rebound]

theorem applyEnergy_rebound (d : Slots 32) (bind : BitVec 16) (sink : List Publish) (s : State) :
    applyEnergy d (rebound bind sink s) =
      rebound bind (sink ++ slotEvents .ene 11 10000 bind (accumulate s.e d)) (applyEnergy d s) := by
  simp only [applyEnergy_eq, rebound]

/-- The decoders read the buffer and the draw, so each arm applies the same record under every `BIND`. -/
theorem dispatch_bindOnlySelects (T : Byte) (s : State) : BindOnlySelects (dispatch T) s := by
  rcases typeByte_cases T with rfl | rfl | rfl | rfl | hT
  · exact ⟨_, _, rfl, fun bind sink => congrArg _ (applyVoltage_rebound (decodeVoltage s) bind sink (nextDraw s))⟩
  · exact ⟨_, _, slotEvents_unbound .cur 1 100 (decodeCurrent s),
      fun bind sink => congrArg _ (applyCurrent_rebound (decodeCurrent s) bind sink (nextDraw s))⟩
  · exact ⟨_, _, slotEvents_unbound .pow 6 1 (decodePower s),
      fun bind sink => congrArg _ (applyPower_rebound (decodePower s) bind sink (nextDraw s))⟩
  · exact ⟨_, _, slotEvents_unbound .ene 11 10000 (accumulate s.e (decodeEnergy s)),
      fun bind sink => congrArg _ (applyEnergy_rebound (decodeEnergy s) bind sink (nextDraw s))⟩
  · refine .of_silent (raise .unknownType s.fb.frame s) fun bind sink => ?_
    rw [dispatch_eq_exec, decodeMsg_unknown hT]
    rfl

/-- The checks read the buffer and the length latch only (40_stream_ops.md R79, R80). -/
theorem checkAndDispatch_bindOnlySelects (s : State) : BindOnlySelects checkAndDispatch s := by
  rcases heof : eofOk s
  · exact .of_silent (raise .badEof s.fb.frame s) fun _ _ => if_pos heof
  rcases hsum : checksumOk s
  · exact .of_silent (raise .badChecksum s.fb.frame s) fun _ _ =>
      (if_neg (ne_false_of_eq_true heof)).trans (if_pos hsum)
  · exact .of_eq (dispatch_bindOnlySelects (typeByte s) s) fun _ _ =>
      (if_neg (ne_false_of_eq_true heof)).trans (if_neg (ne_false_of_eq_true hsum))

/-- The operation of the head byte: of the four classes only FRAME can publish. -/
theorem exec_decodeLen_bindOnlySelects {s : State} {b : Byte} {rest : List Byte} (hrx : s.rx = b :: rest) :
    BindOnlySelects (exec (decodeLen b)) s := by
  have hnoisy : BindOnlySelects (dropOne b (raise .noiseByte)) s :=
    .of_silent (raise .noiseByte [b] (consume 1 (latch b s))) fun _ _ => dropOne_cons _ _ hrx
  rcases headByte_cases b with rfl | rfl | hover | hlegal
  · exact hnoisy
  · exact .of_silent (consume 1 (latch Config.busyByte s)) fun _ _ => dropOne_cons _ (fun _ t => t) hrx
  · rw [decodeLen_overlen hover]
    exact hnoisy
  · obtain ⟨-, hmax⟩ := legalLength_bounds hlegal
    rw [decodeLen_frame hlegal]
    rcases Nat.lt_or_ge s.rx.length (b.toNat + 2) with hshort | hlen
    · exact .of_silent (halt (latch b s)) fun _ _ => exec_frame_starved hshort
    · exact (checkAndDispatch_bindOnlySelects (loaded b s)).after_endFrame.of_eq fun _ _ => exec_frame_loaded hmax hlen

/-! ### Turns and runs -/

theorem parserStep_bindOnlySelects (s : State) : BindOnlySelects parserStep s := by
  rcases hrun : s.run with _ | _
  · exact .of_silent s fun _ _ => parserStep_halted hrun
  rcases hrx : s.rx with _ | ⟨b, rest⟩
  · exact .of_silent (halt s) fun _ _ => parserStep_idle hrun hrx
  · exact (exec_decodeLen_bindOnlySelects hrx).of_eq fun _ _ => parserStep_exec hrun hrx

/-- Any turn that the machine takes and that is no rebinding and no reset. -/
theorem turnOf_bindOnlySelects {m : Move} {s t : State} (hm : rewires m = false) (h : turnOf m s = .next t) :
    BindOnlySelects (turnOf m) s := by
  rcases turnOf_inv h with ⟨rfl, -⟩ | ⟨b, rfl, -⟩ | ⟨rfl, hrun, -⟩ | ⟨value, rfl, -⟩ | ⟨rfl, -⟩
  · exact parserStep_bindOnlySelects s
  · exact .of_silent { s with rx := s.rx ++ [b] } fun _ _ => rfl
  · exact .of_silent { s with run := .running } fun _ _ => step_tick rfl hrun
  · cases hm
  · cases hm

theorem step_bindOnlySelects {s t : State} (hsteady : steadyHost s) (h : step s = .next t) :
    BindOnlySelects step s := by
  rcases hsched : s.sched with _ | ⟨m, rest⟩
  · exact (parserStep_bindOnlySelects s).of_eq fun _ _ => step_nil hsched
  · have hm : rewires m = false := hsteady m (by simp [hsched])
    have hturn : turnOf m (takeTurn s) = .next t := (step_cons hsched).symm.trans h
    exact (turnOf_bindOnlySelects hm hturn).of_eq fun _ _ => step_cons hsched

theorem step_keeps_steadyHost {s t : State} (hsteady : steadyHost s) (h : step s = .next t) : steadyHost t :=
  fun m hm => hsteady m (List.mem_of_mem_tail (step_sched h ▸ hm))

theorem runFor_bindOnlySelects {n : Nat} {s t : State} (hsteady : steadyHost s) (h : runFor n s = .next t) :
    BindOnlySelects (runFor n) s := by
  induction n generalizing s with
  | zero => exact .of_silent s fun _ _ => rfl
  | succ n ih =>
    obtain ⟨u, hstep, hrest⟩ := runFor_succ_inv h
    obtain ⟨first, hfirst, -, hnext⟩ := (step_bindOnlySelects hsteady hstep).elim hstep
    obtain ⟨later, t, hlater, hruns⟩ := ih (step_keeps_steadyHost hsteady hstep) hrest
    refine ⟨fun bind => first bind ++ later bind, t, by simp [hfirst, hlater], fun bind sink => ?_⟩
    rw [runFor_succ_next n (hnext bind sink), hruns, List.append_assoc]

/-- Settles O48: a run is of this kind by induction on its steps, so with nothing bound it adds no event, and under
another `BIND` it ends in the same state but for `BIND` and SINK. -/
theorem bindOnlyAffectsSink : Obligations.BindOnlyAffectsSink := by
  intro n s t hsteady hrun
  obtain ⟨events, hnone, hsink, hruns⟩ := (runFor_bindOnlySelects hsteady hrun).elim hrun
  refine ⟨fun hzero => ?_, fun bind sink => ⟨_, hruns bind sink, rfl⟩⟩
  rw [hsink, hzero, hnone, List.append_nil]

end Sys2Proof.Machine

/-! The obligation about the causes (60_exceptions.md R128). A turn either logs nothing but summaries, or it raises one
cause; and raising a cause after bytes were consumed is all that such a turn does. -/

namespace Sys2Proof.Machine

/-- The events of a cause carry that cause (60_exceptions.md R122 to R126). -/
theorem Cause.cause_of_mem_events {c : Cause} {recorded : List Byte} {d : Diag} (h : d ∈ c.events recorded) :
    d.cause = c := by
  cases c with
  | summary | starvation => cases h
  | noiseByte | unknownType =>
    obtain rfl := List.mem_singleton.1 h
    rfl
  | badEof | badChecksum =>
    rcases List.mem_pair.1 h with rfl | rfl
    · rfl
    · rfl

/-- From `s` to `t` no event was logged but summaries, which report no error (60_exceptions.md R133). -/
def LogsSummaries (s t : State) : Prop :=
  ∃ new, t.diag = s.diag ++ new ∧ ∀ d ∈ new, d.cause = .summary

theorem LogsSummaries.of_silent {s t : State} (h : t.diag = s.diag) : LogsSummaries s t :=
  ⟨[], by rw [h, List.append_nil], by simp⟩

/-- From `s` to `t` a cause was raised in an invocation: some bytes were consumed, the events of the cause were logged,
and the PARSER goes on with nothing else changed (60_exceptions.md R128). -/
def Recovers (s t : State) : Prop :=
  s.run = .running ∧ ∃ n c recorded, 0 < n ∧ Advances n (Cause.events c recorded) s t

/-- The checks and the dispatch of a loaded frame raise a cause and do nothing else, or end in an apply, which logs one
summary (40_stream_ops.md R79 to R81). -/
theorem checkAndDispatch_raises_or_summarises {s t : State} (h : checkAndDispatch s = .next t) :
    (∃ c, t = raise c s.fb.frame s) ∨ ∃ r, t.diag = s.diag ++ [⟨.summary, .info, .record r⟩] := by
  rcases checkAndDispatch_results s with
    ⟨-, hc⟩ | ⟨-, -, hc⟩ | ⟨-, -, ⟨-, hc⟩ | ⟨-, hc⟩ | ⟨-, hc⟩ | ⟨-, hc⟩ | ⟨-, hc⟩⟩ <;>
    obtain rfl := Host.Outcome.next.inj (hc.symm.trans h)
  · exact .inl ⟨.badEof, rfl⟩
  · exact .inl ⟨.badChecksum, rfl⟩
  · exact .inr ⟨_, by rw [applyVoltage_eq]; rfl⟩
  · exact .inr ⟨_, by rw [applyCurrent_eq]; rfl⟩
  · exact .inr ⟨_, by rw [applyPower_eq]; rfl⟩
  · exact .inr ⟨_, by rw [applyEnergy_eq]; rfl⟩
  · exact .inl ⟨.unknownType, rfl⟩

/-- The PARSER's turn: IDLE, the filler drop and a starved frame are silent, a noisy drop and a rejected or unknown
frame recover, and an applied frame logs its summary. -/
theorem parserStep_summarises_or_recovers {s t : State} (h : parserStep s = .next t) :
    LogsSummaries s t ∨ Recovers s t := by
  rcases parserStep_inv h with ⟨-, rfl⟩ | ⟨-, -, rfl⟩ | ⟨hrun, b, rest, -, hop⟩
  · exact .inl (.of_silent rfl)
  · exact .inl (.of_silent rfl)
  rcases hop with ⟨-, rfl⟩ | ⟨-, rfl⟩ | ⟨-, -, rfl⟩ | ⟨-, -, u, hcheck, rfl⟩
  · exact .inr ⟨hrun, 1, .noiseByte, [b], Nat.one_pos, (advances_consume_latch 1 b s).after_raise .noiseByte [b]⟩
  · exact .inl (.of_silent rfl)
  · exact .inl (.of_silent rfl)
  rcases checkAndDispatch_raises_or_summarises hcheck with ⟨c, rfl⟩ | ⟨r, hdiag⟩
  · exact .inr ⟨hrun, _, c, _, Nat.succ_pos _, ((advances_loaded b s).after_raise c _).after_discardFrame⟩
  · exact .inl ⟨_, hdiag, by simp⟩

/-- Any step but a reset: only the PARSER's turn logs anything. -/
theorem step_summarises_or_recovers {s t : State} (h : step s = .next t) (hreset : s.sched.head? ≠ some .reset) :
    LogsSummaries s t ∨ Recovers (takeTurn s) t := by
  rcases step_inv h with ⟨-, hparser⟩ | ⟨b, -, rfl⟩ | ⟨-, -, rfl⟩ | ⟨value, -, -, rfl⟩ | ⟨hhead, -⟩
  · exact parserStep_summarises_or_recovers hparser
  · exact .inl (.of_silent rfl)
  · exact .inl (.of_silent rfl)
  · exact .inl (.of_silent rfl)
  · exact absurd hhead hreset

theorem step_of_parserTurn {s : State} (h : parserTurn s = true) :
    s.run = .running ∧ step s = parserStep (takeTurn s) := by
  simp only [parserTurn, Bool.and_eq_true, Bool.or_eq_true, beq_iff_eq] at h
  obtain ⟨hrun, hsched | hhead⟩ := h
  · exact ⟨hrun, by rw [step_nil hsched, takeTurn_nil hsched]⟩
  · obtain ⟨moves, hsched⟩ := List.head?_eq_some_iff.1 hhead
    exact ⟨hrun, step_cons hsched⟩

/-- STARVATION: the PARSER's turn on an incomplete frame latches its length and returns (40_stream_ops.md R77,
60_exceptions.md R126). -/
theorem step_starved {s : State} {b : Byte} {rest : List Byte} (hturn : parserTurn s = true) (hrx : s.rx = b :: rest)
    (hwaits : awaitsBytes s.rx = true) : step s = .next (halt (latch b (takeTurn s))) := by
  obtain ⟨hrun, hstep⟩ := step_of_parserTurn hturn
  obtain ⟨hlegal, hshort⟩ : legalLength b = true ∧ s.rx.length < b.toNat + 2 := by
    rw [hrx] at hwaits ⊢
    simpa only [awaitsBytes, Bool.and_eq_true, decide_eq_true_eq] using hwaits
  rw [hstep, parserStep_exec (s := takeTurn s) hrun hrx, decodeLen_frame hlegal,
    exec_frame_starved (s := takeTurn s) hshort]

/-- Settles O44: an event that is no summary comes from a raised cause, which `Advances` says leaves everything but the
stream and DIAG alone; and a starved frame's step is known whole. -/
theorem causesLeaveRegistersAlone : Obligations.CausesLeaveRegistersAlone := by
  intro s t hstep hreset
  refine ⟨?causes, fun hturn hnonempty hwaits => ?starved⟩
  case causes =>
    rcases step_summarises_or_recovers hstep hreset with ⟨new, hdiag, hsummary⟩ | ⟨hrun, n, c, recorded, hn, h⟩
    · exact ⟨new, hdiag, fun d hd hcause => absurd (hsummary d hd) hcause⟩
    · refine ⟨c.events recorded, h.diag, fun d hd _ => ⟨fun d' hd' => ?_, { h.registers with }, h.sink,
        h.run.trans hrun, ?_, ?_⟩⟩
      · rw [Cause.cause_of_mem_events hd, Cause.cause_of_mem_events hd']
      · rw [h.pos, takeTurn_pos]
        omega
      · rw [h.rx, h.pos, takeTurn_pos, takeTurn_rx, Nat.add_sub_cancel_left]
  case starved =>
    obtain ⟨b, rest, hrx⟩ := List.exists_cons_of_ne_nil hnonempty
    obtain rfl := Host.Outcome.next.inj ((step_starved hturn hrx hwaits).symm.trans hstep)
    rfl

end Sys2Proof.Machine

/-! The obligations about the two encodings (30_encoding.md): both decoders are inverses of the encoder on the
well-formed operations of their format, and the frame encoder lays a frame out as the checks of FRAME read it. -/

namespace Sys2Proof

/-- What format MSG decodes a byte to is an operation of that format, well-formed, and selected by that byte
(30_encoding.md R57). -/
theorem decodeMsg_spec (b : Byte) :
    (decodeMsg b).format = .msg ∧ (decodeMsg b).wf = true ∧ selector (decodeMsg b) = b := by
  rcases typeByte_cases b with rfl | rfl | rfl | rfl | hunknown
  · decide
  · decide
  · decide
  · decide
  · rw [decodeMsg_unknown hunknown]
    exact ⟨rfl, by simp [Instr.wf, hunknown], rfl⟩

/-- A well-formed operation of format MSG is decoded from the byte that selects it. -/
theorem decodeMsg_selector {i : Instr} (hformat : i.format = .msg) (hwf : i.wf = true) :
    decodeMsg (selector i) = i := by
  cases i with
  | msgVoltage | msgCurrent | msgPower | msgEnergy => rfl
  | msgUnknown T => exact decodeMsg_unknown (by simpa [Instr.wf, selector] using hwf)
  | dropZero | dropFiller | dropOverlen | frame => cases hformat

/-- In either format the operation that a byte decodes to is of that format, well-formed, and selected by that byte. -/
theorem decodeByte_spec (f : Format) (b : Byte) :
    (decodeByte f b).format = f ∧ (decodeByte f b).wf = true ∧ selector (decodeByte f b) = b := by
  cases f with
  | len => exact decodeLen_spec b
  | msg => exact decodeMsg_spec b

/-- Each well-formed operation is decoded, in its own format, from the byte that selects it. -/
theorem decodeByte_selector {i : Instr} (hwf : i.wf = true) : decodeByte i.format (selector i) = i := by
  cases hformat : i.format with
  | len => exact decodeLen_selector hformat hwf
  | msg => exact decodeMsg_selector hformat hwf

/-- Settles O1: the encoding is the selecting byte, which the decoder of the operation's format inverts. -/
theorem decodeEncodeRoundTrip : Obligations.DecodeEncodeRoundTrip := by
  intro i rest hwf
  rw [encode, List.singleton_append, decode_cons, decodeByte_selector hwf]

/-- Settles O2: the operation is the one that the byte decodes to; another with the same selecting byte would be decoded
from it too. -/
theorem everyByteIsOneOperation : Obligations.EveryByteIsOneOperation := by
  intro f b rest
  obtain ⟨hformat, hwf, hselector⟩ := decodeByte_spec f b
  refine ⟨decodeByte f b, hwf, hformat, decode_cons f b rest, by rw [encode, hselector], ?unique⟩
  rintro j hwf' rfl hencode
  obtain rfl : selector j = b := List.singleton_inj.1 hencode
  exact (decodeByte_selector hwf').symm

/-- The word of every well-formed operation matches one row of its format, of its own mnemonic. -/
theorem encodeMatchesTable (i : Instr) : Laws.EncodeMatchesTable.Statement i := by
  cases i with
  | dropZero => exact Laws.EncodeMatchesTable.dropZero
  | dropFiller => exact Laws.EncodeMatchesTable.dropFiller
  | dropOverlen b => exact Laws.EncodeMatchesTable.dropOverlen b
  | frame L => exact Laws.EncodeMatchesTable.frame L
  | msgVoltage => exact Laws.EncodeMatchesTable.msgVoltage
  | msgCurrent => exact Laws.EncodeMatchesTable.msgCurrent
  | msgPower => exact Laws.EncodeMatchesTable.msgPower
  | msgEnergy => exact Laws.EncodeMatchesTable.msgEnergy
  | msgUnknown T => exact Laws.EncodeMatchesTable.msgUnknown T

/-- Settles O5: the row of a byte is the row of the operation that the byte decodes to. -/
theorem opcodeRowsPartitionBytes : Obligations.OpcodeRowsPartitionBytes := by
  intro f b
  obtain ⟨hformat, hwf, hselector⟩ := decodeByte_spec f b
  have hrow := encodeMatchesTable (decodeByte f b) hwf
  rw [hformat, hselector] at hrow
  exact List.map_eq_singleton_iff.1 hrow

/-- Settles O6: the nine words are evaluated. -/
theorem sampleWordsDecode : Obligations.SampleWordsDecode := by
  unfold Obligations.SampleWordsDecode
  decide

/-- Settles O8: by induction on the bytes, the sum of the rest being taken modulo 256 already. -/
theorem sumOfBytesModulo256 : Obligations.SumOfBytesModulo256 := by
  intro bytes
  induction bytes with
  | nil => rfl
  | cons b rest ih => rw [sum8_cons, BitVec.toNat_add, ih, Nat.add_mod_mod, List.map_cons, List.sum_cons]

/-! ### The frame encoder -/

/-- The length byte of an encoded frame, for at most 45 field bytes (30_encoding.md R67). -/
theorem frameBytes_lengthByte_toNat {n : Nat} (hn : n ≤ 45) : (BitVec.ofNat 8 (n + 2)).toNat = n + 2 := by
  rw [BitVec.toNat_ofNat]
  omega

theorem frameBytes_eq_cons (T : Byte) (fields : List Byte) :
    frameBytes T fields =
      BitVec.ofNat 8 (fields.length + 2) :: T :: (fields ++ [sum8 (T :: fields), Config.eof]) := by
  simp [frameBytes]

end Sys2Proof

namespace Sys2Proof.Machine

/-- An encoded frame passes the checks of FRAME: the length byte leads to the checksum and EOF bytes, and the bytes
summed are the type byte and the fields (30_encoding.md R53, R54). -/
theorem isFrame_frameBytes (T : Byte) {fields : List Byte} (hfields : fields.length ≤ 45) :
    isFrame (frameBytes T fields) = true := by
  have hL := frameBytes_lengthByte_toNat hfields
  have hlegal : legalLength (BitVec.ofNat 8 (fields.length + 2)) = true := by
    rw [legalLength_iff, hL]
    omega
  rw [frameBytes_eq_cons]
  simp [isFrame, hlegal, hL]

/-- Settles O7: the encoded frame is read off as a list, the length byte standing for the number of fields and 2. -/
theorem frameEncoderGivesFrames : Obligations.FrameEncoderGivesFrames := by
  intro T fields hfields
  refine ⟨isFrame_frameBytes T hfields, frameBytes_length T fields, rfl, rfl, fun k hk => ?field⟩
  rw [frameBytes_eq_cons, List.getElem?_cons_succ, List.getElem?_cons_succ, List.getElem?_append_left hk]

end Sys2Proof.Machine

/-! The PARSER's turn and the reference function (40_stream_ops.md R84). With an invocation in progress the turn makes the
first outcome of `Parse`, or returns where there is none; and what an outcome does to the registers, the buffer and the
traces depends on nothing of the stream and control side of the state, so effects commute with changes there. -/

namespace Sys2Proof.Machine

/-! ### The first outcome by the class of the head byte -/

theorem firstOutcome_zero (tail : List Byte) : firstOutcome (0x00#8 :: tail) = some (.drop 0x00#8 true) := rfl

theorem firstOutcome_filler (tail : List Byte) :
    firstOutcome (Config.busyByte :: tail) = some (.drop Config.busyByte false) := rfl

theorem firstOutcome_overlen {b : Byte} (h : overlenByte b = true) (tail : List Byte) :
    firstOutcome (b :: tail) = some (.drop b true) := by
  have hzero : b ≠ 0x00#8 := by
    rintro rfl
    cases h
  have hfiller : b ≠ Config.busyByte := by
    rintro rfl
    cases h
  have hmax : Config.maxMsgLength ≤ b.toNat := ((overlenByte_iff b).1 h).1
  simp [firstOutcome, hzero, hfiller, hmax]

/-- A legal length: the candidate frame if it is complete, and no outcome if it is not. -/
theorem firstOutcome_legal {b : Byte} (h : legalLength b = true) (tail : List Byte) :
    firstOutcome (b :: tail) =
      if (b :: tail).length < b.toNat + 2 then none
      else some (parseFrame b.toNat ((b :: tail).take (b.toNat + 2))) := by
  have hzero : b ≠ 0x00#8 := by
    rintro rfl
    cases h
  have hfiller : b ≠ Config.busyByte := by
    rintro rfl
    cases h
  have hmax : ¬ Config.maxMsgLength ≤ b.toNat := by
    have := (legalLength_iff b).1 h
    simp only [Config.maxMsgLength]
    omega
  simp only [firstOutcome, hzero, hfiller, hmax, if_false]

theorem legalLength_eq_false_of_overlen {b : Byte} (h : overlenByte b = true) : legalLength b = false := by
  have hover := (overlenByte_iff b).1 h
  rw [← Bool.not_eq_true, legalLength_iff]
  omega

/-- A byte that is no legal length is dropped. -/
theorem firstOutcome_illegal {b : Byte} (h : legalLength b = false) (tail : List Byte) :
    ∃ noisy, firstOutcome (b :: tail) = some (.drop b noisy) := by
  rcases headByte_cases b with rfl | rfl | hover | hlegal
  · exact ⟨true, firstOutcome_zero tail⟩
  · exact ⟨false, firstOutcome_filler tail⟩
  · exact ⟨true, firstOutcome_overlen hover tail⟩
  · cases h.symm.trans hlegal

/-- `Parse` has no outcome exactly where no complete operation can be made of the bytes. -/
theorem firstOutcome_eq_none_iff (rx : List Byte) : firstOutcome rx = none ↔ awaitsBytes rx = true := by
  rcases rx with _ | ⟨b, tail⟩
  · exact iff_of_true rfl rfl
  rcases headByte_cases b with rfl | rfl | hover | hlegal
  · exact iff_of_false nofun nofun
  · exact iff_of_false nofun nofun
  · simp [firstOutcome_overlen hover, awaitsBytes, legalLength_eq_false_of_overlen hover]
  · simp [firstOutcome_legal hlegal, awaitsBytes, hlegal]

/-- Bytes that arrive behind a complete operation do not change it. -/
theorem firstOutcome_append {rx : List Byte} {o : Parsed} (h : firstOutcome rx = some o) (more : List Byte) :
    firstOutcome (rx ++ more) = some o := by
  rcases rx with _ | ⟨b, tail⟩
  · cases h
  rcases headByte_cases b with rfl | rfl | hover | hlegal
  · exact h
  · exact h
  · rw [firstOutcome_overlen hover] at h
    rw [List.cons_append, firstOutcome_overlen hover, h]
  · rw [firstOutcome_legal hlegal] at h
    rw [List.cons_append, firstOutcome_legal hlegal, ← List.cons_append]
    split at h
    · cases h
    · have hlen : b.toNat + 2 ≤ (b :: tail).length := by omega
      rw [List.take_append_of_le_length hlen, if_neg (by rw [List.length_append]; omega), h]

/-! ### What an outcome does, without the stream -/

/-- What an outcome does to the registers, the buffer and the traces. -/
def Parsed.record (o : Parsed) (s : State) : State :=
  match o with
  | .drop b true => raise .noiseByte [b] s
  | .drop _ false => s
  | .badEof b => discardFrame (raise .badEof b s)
  | .badChecksum b => discardFrame (raise .badChecksum b s)
  | .valid b => applyFrame b s

/-- The state with another stream and control side. -/
def withStream (rx : List Byte) (pos : Nat) (run : Run) (len : Byte) (ms : List Move) (s : State) : State :=
  { s with rx := rx, pos := pos, run := run, len := len, sched := ms }

/-- A valid frame runs the operation that its type byte selects on the buffer that holds it. -/
theorem applyFrame_cases (b : List Byte) (s : State) :
    (typeByte (loadFrame b s) = Config.tVoltage ∧
      applyFrame b s = discardFrame (applyVoltage (decodeVoltage (loadFrame b s)) (nextDraw (loadFrame b s)))) ∨
    (typeByte (loadFrame b s) = Config.tCurrent ∧
      applyFrame b s = discardFrame (applyCurrent (decodeCurrent (loadFrame b s)) (nextDraw (loadFrame b s)))) ∨
    (typeByte (loadFrame b s) = Config.tPower ∧
      applyFrame b s = discardFrame (applyPower (decodePower (loadFrame b s)) (nextDraw (loadFrame b s)))) ∨
    (typeByte (loadFrame b s) = Config.tEnergy ∧
      applyFrame b s = discardFrame (applyEnergy (decodeEnergy (loadFrame b s)) (nextDraw (loadFrame b s)))) ∨
    (recognisedType (typeByte (loadFrame b s)) = false ∧
      applyFrame b s = discardFrame (raise .unknownType b (loadFrame b s))) := by
  unfold applyFrame
  rcases typeByte_cases (typeByte (loadFrame b s)) with h | h | h | h | h
  · exact .inl ⟨h, by simp only [h]; rfl⟩
  · exact .inr (.inl ⟨h, by simp only [h]; rfl⟩)
  · exact .inr (.inr (.inl ⟨h, by simp only [h]; rfl⟩))
  · exact .inr (.inr (.inr (.inl ⟨h, by simp only [h]; rfl⟩)))
  · exact .inr (.inr (.inr (.inr ⟨h, by simp only [decodeMsg_unknown h]⟩)))

/-- FRAME's dispatch and discard on a loaded frame are what the reference function's valid outcome does. -/
theorem endFrame_dispatch_loadFrame (b : List Byte) (s : State) :
    endFrame (dispatch (typeByte (loadFrame b s)) (loadFrame b s)) = .next (applyFrame b s) := by
  rcases applyFrame_cases b s with ⟨hT, h⟩ | ⟨hT, h⟩ | ⟨hT, h⟩ | ⟨hT, h⟩ | ⟨hT, h⟩
  · rw [h, hT]
    rfl
  · rw [h, hT]
    rfl
  · rw [h, hT]
    rfl
  · rw [h, hT]
    rfl
  · rw [h, dispatch_eq_exec, decodeMsg_unknown hT, exec_msgUnknown, loadFrame_fb, Memory.frame_ofBytes]
    rfl

theorem applyFrame_withStream (rx : List Byte) (pos : Nat) (run : Run) (len : Byte) (ms : List Move) (b : List Byte)
    (s : State) : applyFrame b (withStream rx pos run len ms s) = withStream rx pos run len ms (applyFrame b s) := by
  have hT : typeByte (loadFrame b (withStream rx pos run len ms s)) = typeByte (loadFrame b s) := rfl
  unfold applyFrame
  simp only [hT]
  rcases typeByte_cases (typeByte (loadFrame b s)) with h | h | h | h | h
  · simp only [h, decodeMsg, if_true, applyVoltage_eq]
    rfl
  · simp only [h]
    simp only [decodeMsg, applyCurrent_eq]
    rfl
  · simp only [h]
    simp only [decodeMsg, applyPower_eq]
    rfl
  · simp only [h]
    simp only [decodeMsg, applyEnergy_eq]
    rfl
  · simp only [decodeMsg_unknown h]
    rfl

theorem record_withStream (rx : List Byte) (pos : Nat) (run : Run) (len : Byte) (ms : List Move) (o : Parsed)
    (s : State) : o.record (withStream rx pos run len ms s) = withStream rx pos run len ms (o.record s) := by
  rcases o with ⟨b, _ | _⟩ | b | b | b
  · rfl
  · rfl
  · rfl
  · rfl
  · exact applyFrame_withStream rx pos run len ms b s

/-- The effect of an outcome: its bytes leave the stream, the control side stays, and the rest is its record. -/
theorem effect_eq (o : Parsed) (s : State) :
    o.effect s = withStream (s.rx.drop o.size) (s.pos + o.size) s.run s.len s.sched (o.record s) := by
  rw [← record_withStream]
  rcases o with ⟨b, _ | _⟩ | b | b | b <;> rfl

@[simp] theorem effect_rx (o : Parsed) (s : State) : (o.effect s).rx = s.rx.drop o.size := by rw [effect_eq]; rfl
@[simp] theorem effect_pos (o : Parsed) (s : State) : (o.effect s).pos = s.pos + o.size := by rw [effect_eq]; rfl
@[simp] theorem effect_run (o : Parsed) (s : State) : (o.effect s).run = s.run := by rw [effect_eq]; rfl
@[simp] theorem effect_len (o : Parsed) (s : State) : (o.effect s).len = s.len := by rw [effect_eq]; rfl
@[simp] theorem effect_sched (o : Parsed) (s : State) : (o.effect s).sched = s.sched := by rw [effect_eq]; rfl

/-! ### The PARSER's turn -/

/-- The checks and the dispatch of FRAME on a complete candidate are the outcome that `Parse` gives it
(40_stream_ops.md R79 to R81, R84). -/
theorem endFrame_checkAndDispatch_loaded {s : State} {b : Byte} (hlen : b.toNat + 2 ≤ s.rx.length) :
    endFrame (checkAndDispatch (loaded b s)) =
      .next (latch b ((parseFrame b.toNat (s.rx.take (b.toNat + 2))).effect s)) := by
  have htaken : (s.rx.take (b.toNat + 2)).length = b.toNat + 2 := List.length_take_of_le hlen
  have heof := loaded_eofOk b s
  have hsum := loaded_checksumOk b s
  rcases checkAndDispatch_cases (loaded b s) with ⟨h1, h⟩ | ⟨h1, h2, h⟩ | ⟨h1, h2, h⟩
  · rw [h1, Bool.false_eq, beq_eq_false_iff_ne] at heof
    rw [h, parseFrame, if_pos heof, effect_eq, Parsed.size, htaken, loaded_frame]
    rfl
  · rw [h1, Bool.true_eq, beq_iff_eq] at heof
    rw [h2, Bool.false_eq, beq_eq_false_iff_ne] at hsum
    rw [h, parseFrame, if_neg (not_not.2 heof), if_pos hsum.symm, effect_eq, Parsed.size, htaken, loaded_frame]
    rfl
  · rw [h1, Bool.true_eq, beq_iff_eq] at heof
    rw [h2, Bool.true_eq, beq_iff_eq] at hsum
    rw [h, parseFrame, if_neg (not_not.2 heof), if_neg (not_not.2 hsum.symm), loaded, endFrame_dispatch_loadFrame,
      effect_eq, Parsed.size, htaken]
    exact congrArg _ (applyFrame_withStream (s.rx.drop (b.toNat + 2)) (s.pos + (b.toNat + 2)) s.run b s.sched
      (s.rx.take (b.toNat + 2)) s)

/-- With an operation complete at the head of the stream, the PARSER's turn does what its outcome does and latches the
head byte. -/
theorem parserStep_outcome {s : State} {o : Parsed} (hrun : s.run = .running) (ho : firstOutcome s.rx = some o) :
    ∃ b, parserStep s = .next (latch b (o.effect s)) := by
  rcases hrx : s.rx with _ | ⟨b, tail⟩
  · rw [hrx] at ho
    cases ho
  refine ⟨b, ?_⟩
  have hstep := parserStep_exec hrun hrx
  have hnoisy : dropOne b (raise .noiseByte) s = .next (latch b ((Parsed.drop b true).effect s)) :=
    dropOne_cons _ _ hrx
  rw [hrx] at ho
  rcases headByte_cases b with rfl | rfl | hover | hlegal
  · obtain rfl := Option.some.inj ho
    exact hstep.trans hnoisy
  · obtain rfl := Option.some.inj ho
    exact hstep.trans (dropOne_cons Config.busyByte (fun _ t => t) hrx)
  · obtain rfl := Option.some.inj ((firstOutcome_overlen hover tail).symm.trans ho)
    rw [hstep, decodeLen_overlen hover, exec_dropOverlen, hnoisy]
  · rw [firstOutcome_legal hlegal, ← hrx] at ho
    obtain ⟨-, hmax⟩ := legalLength_bounds hlegal
    split at ho
    · cases ho
    · have hlen : b.toNat + 2 ≤ s.rx.length := by omega
      obtain rfl := Option.some.inj ho
      rw [hstep, decodeLen_frame hlegal, exec_frame_loaded hmax hlen, endFrame_checkAndDispatch_loaded hlen]

/-- With no complete operation buffered, the PARSER's turn returns and changes nothing but `run` and the latch. -/
theorem parserStep_awaits {s : State} (hrun : s.run = .running) (hwaits : awaitsBytes s.rx = true) :
    ∃ b, parserStep s = .next (halt (latch b s)) := by
  rcases hrx : s.rx with _ | ⟨b, tail⟩
  · exact ⟨s.len, parserStep_idle hrun hrx⟩
  · rw [hrx] at hwaits
    simp only [awaitsBytes, Bool.and_eq_true, decide_eq_true_eq] at hwaits
    obtain ⟨hlegal, hshort⟩ := hwaits
    rw [← hrx] at hshort
    exact ⟨b, by rw [parserStep_exec hrun hrx, decodeLen_frame hlegal, exec_frame_starved hshort]⟩

/-- The PARSER's turn in an invocation, read backwards: one outcome of `Parse`, or the return. -/
theorem parserStep_running_inv {s t : State} (hrun : s.run = .running) (h : parserStep s = .next t) :
    (∃ o b, firstOutcome s.rx = some o ∧ t = latch b (o.effect s)) ∨
    (awaitsBytes s.rx = true ∧ ∃ b, t = halt (latch b s)) := by
  rcases ho : firstOutcome s.rx with _ | o
  · have hwaits := (firstOutcome_eq_none_iff s.rx).1 ho
    obtain ⟨b, hb⟩ := parserStep_awaits hrun hwaits
    exact .inr ⟨hwaits, b, Host.Outcome.next.inj (h.symm.trans hb)⟩
  · obtain ⟨b, hb⟩ := parserStep_outcome hrun ho
    exact .inl ⟨o, b, rfl, Host.Outcome.next.inj (h.symm.trans hb)⟩

end Sys2Proof.Machine

/-! The obligations about runs against the reference function (40_stream_ops.md section 6, 70_reset_and_hazards.md
sections 3 and 4). What a state will have become once all its scheduled bytes have arrived and every complete operation
has been made is a function of the state, its outlook, and no turn changes it but the HOST's rebinding and reset. -/

namespace Sys2Proof.Machine

/-! ### Turns -/

/-- Every step is a turn, the PARSER's where the schedule is empty. -/
theorem step_eq_turnOf (s : State) : step s = turnOf (s.sched.headD .parser) (takeTurn s) := by
  rcases hsched : s.sched with _ | ⟨m, rest⟩
  · rw [step_nil hsched, takeTurn_nil hsched]
    rfl
  · exact step_cons hsched

/-- A turn but a reset read backwards, the PARSER's operation being an outcome of `Parse` or the return. -/
theorem turnOf_outcomes {m : Move} {s t : State} (h : turnOf m s = .next t) (hreset : m ≠ .reset) :
    (m = .parser ∧ s.run = .halted ∧ t = s) ∨
    (m = .parser ∧ s.run = .running ∧ ∃ o b, firstOutcome s.rx = some o ∧ t = latch b (o.effect s)) ∨
    (m = .parser ∧ s.run = .running ∧ awaitsBytes s.rx = true ∧ ∃ b, t = halt (latch b s)) ∨
    (∃ b, m = .append b ∧ t = { s with rx := s.rx ++ [b] }) ∨
    (m = .tick ∧ s.run = .halted ∧ t = { s with run := .running }) ∨
    (∃ value, m = .writeBind value ∧ s.run = .halted ∧ t = { s with bind := value }) := by
  rcases turnOf_inv h with ⟨rfl, hparser⟩ | happend | htick | hbind | ⟨rfl, -⟩
  · rcases hrun : s.run with _ | _
    · rw [parserStep_halted hrun] at hparser
      exact .inl ⟨rfl, rfl, (Host.Outcome.next.inj hparser).symm⟩
    · rcases parserStep_running_inv hrun hparser with hout | hret
      · exact .inr (.inl ⟨rfl, rfl, hout⟩)
      · exact .inr (.inr (.inl ⟨rfl, rfl, hret⟩))
  · exact .inr (.inr (.inr (.inl happend)))
  · exact .inr (.inr (.inr (.inr (.inl htick))))
  · exact .inr (.inr (.inr (.inr (.inr hbind))))
  · exact absurd rfl hreset

/-! ### The stream and the cursor -/

theorem appended_append (ms ms' : List Move) : appended (ms ++ ms') = appended ms ++ appended ms' :=
  List.filterMap_append

/-- The bytes that the first turns append: those of the coming turn, then those of the turns after it. -/
theorem appended_take_succ (ms : List Move) (n : Nat) :
    appended (ms.take (n + 1)) = appended [ms.headD .parser] ++ appended (ms.tail.take n) := by
  cases ms with
  | nil => simp [appended]
  | cons m rest => exact appended_append [m] (rest.take n)

theorem appended_eq_headD_tail (ms : List Move) : appended ms = appended [ms.headD .parser] ++ appended ms.tail := by
  cases ms with
  | nil => rfl
  | cons m rest => exact appended_append [m] rest

/-- From `s`, with the bytes `arrived` put behind those buffered, to `t` the first bytes were consumed and counted. -/
def Conserves (arrived : List Byte) (s t : State) : Prop :=
  ∃ consumed, s.rx ++ arrived = consumed ++ t.rx ∧ t.pos = s.pos + consumed.length

theorem Conserves.of_untouched {s t : State} (hrx : t.rx = s.rx) (hpos : t.pos = s.pos) : Conserves [] s t :=
  ⟨[], by rw [hrx, List.append_nil, List.nil_append], hpos⟩

theorem Conserves.trans {a a' : List Byte} {s t u : State} (h : Conserves a s t) (h' : Conserves a' t u) :
    Conserves (a ++ a') s u := by
  obtain ⟨c, hrx, hpos⟩ := h
  obtain ⟨c', hrx', hpos'⟩ := h'
  refine ⟨c ++ c', ?_, by rw [hpos', hpos, List.length_append, Nat.add_assoc]⟩
  rw [← List.append_assoc, hrx, List.append_assoc, hrx', List.append_assoc]

/-- An outcome consumes its bytes. -/
theorem conserves_effect {s : State} {o : Parsed} (ho : firstOutcome s.rx = some o) (b : Byte) :
    Conserves [] s (latch b (o.effect s)) := by
  obtain ⟨-, hsize⟩ := firstOutcome_size ho
  refine ⟨s.rx.take o.size, ?_, ?_⟩
  · rw [latch_rx, effect_rx, List.take_append_drop, List.append_nil]
  · rw [latch_pos, effect_pos, List.length_take_of_le hsize]

theorem turnOf_conserves {m : Move} {s t : State} (h : turnOf m s = .next t) (hreset : m ≠ .reset) :
    Conserves (appended [m]) s t := by
  rcases turnOf_outcomes h hreset with ⟨rfl, -, rfl⟩ | ⟨rfl, -, o, b, ho, rfl⟩ | ⟨rfl, -, -, b, rfl⟩ | ⟨b, rfl, rfl⟩ |
    ⟨rfl, -, rfl⟩ | ⟨value, rfl, -, rfl⟩
  · exact .of_untouched rfl rfl
  · exact conserves_effect ho b
  · exact .of_untouched rfl rfl
  · exact ⟨[], rfl, rfl⟩
  · exact .of_untouched rfl rfl
  · exact .of_untouched rfl rfl

theorem mem_take_succ_of_mem_take_tail {m : Move} {ms : List Move} {n : Nat} (h : m ∈ ms.tail.take n) :
    m ∈ ms.take (n + 1) := by
  cases ms with
  | nil => simp at h
  | cons first rest => exact List.mem_cons_of_mem first h

theorem headD_ne_reset {ms : List Move} (h : ms.head? ≠ some .reset) : ms.headD .parser ≠ .reset := by
  rintro heq
  cases ms with
  | nil => cases heq
  | cons m rest => exact h (congrArg some heq)

/-- Settles O45: every turn but a reset conserves the stream, and conservation composes over the steps of a run. -/
theorem cursorCountsConsumedBytes : Obligations.CursorCountsConsumedBytes := by
  intro n s t hreset hrun
  show Conserves (appended (s.sched.take n)) s t
  induction n generalizing s with
  | zero =>
    obtain rfl := Host.Outcome.next.inj hrun
    exact .of_untouched rfl rfl
  | succ n ih =>
    obtain ⟨u, hstep, hrest⟩ := runFor_succ_inv hrun
    have hhead : s.sched.head? ≠ some .reset := by
      intro hhead
      obtain ⟨moves, hsched⟩ := List.head?_eq_some_iff.1 hhead
      exact hreset (by simp [hsched])
    have htail : Move.reset ∉ s.sched.tail.take n := mt mem_take_succ_of_mem_take_tail hreset
    have hfirst : Conserves (appended [s.sched.headD .parser]) (takeTurn s) u :=
      turnOf_conserves ((step_eq_turnOf s).symm.trans hstep) (headD_ne_reset hhead)
    have hlater := ih u (by rwa [step_sched hstep]) hrest
    rw [step_sched hstep] at hlater
    rw [appended_take_succ]
    exact hfirst.trans hlater

/-! ### The control state -/

/-- Settles O46: the PARSER's turn is the return or one outcome, and the outcome's size follows from the head byte. -/
theorem cursorAndControlTable : Obligations.CursorAndControlTable := by
  intro s t hrun hsched hstep
  rw [step_nil hsched] at hstep
  rcases parserStep_running_inv hrun hstep with ⟨o, c, ho, rfl⟩ | ⟨hwaits, c, rfl⟩
  · refine ⟨fun hrx => ?empty, fun L rest hrx => ?cons⟩
    case empty =>
      rw [hrx] at ho
      cases ho
    case cons =>
      have hgoes : (latch c (o.effect s)).run = .running := (effect_run o s).trans hrun
      simp only [latch_pos, effect_pos, latch_rx, effect_rx]
      rw [hrx] at ho ⊢
      refine ⟨fun hillegal => ?drop, fun hlegal hshort => ?starved, fun hlegal hlen => ?loaded⟩
      case drop =>
        obtain ⟨noisy, hdrop⟩ := firstOutcome_illegal hillegal rest
        obtain rfl := Option.some.inj (hdrop.symm.trans ho)
        exact ⟨hgoes, rfl, rfl⟩
      case starved =>
        rw [firstOutcome_legal hlegal, if_pos hshort] at ho
        cases ho
      case loaded =>
        rw [firstOutcome_legal hlegal, if_neg (Nat.not_lt.2 hlen)] at ho
        have hsize : o.size = L.toNat + 2 := by
          rw [← Option.some.inj ho, parseFrame_size, List.length_take_of_le hlen]
        obtain ⟨-, hmax⟩ := legalLength_bounds hlegal
        exact ⟨hgoes, by omega, by rw [hsize], by omega⟩
  · refine ⟨fun _ => ⟨rfl, rfl⟩, fun L rest hrx => ?_⟩
    rw [hrx] at hwaits
    simp only [awaitsBytes, Bool.and_eq_true, decide_eq_true_eq, ← hrx] at hwaits
    obtain ⟨hlegal, hshort⟩ := hwaits
    exact ⟨fun hillegal => absurd (hillegal.symm.trans hlegal) nofun, fun _ _ => ⟨rfl, rfl, rfl⟩,
      fun _ hlen => absurd hshort (Nat.not_lt.2 hlen)⟩

theorem parserTurn_of_running {s : State} (hrun : s.run = .running) (hnext : ParserNext s) : parserTurn s = true := by
  rcases hnext with hnil | hhead
  · simp [parserTurn, hrun, hnil]
  · simp [parserTurn, hrun, hhead]

/-- Settles O47: of the turns only the tick starts an invocation and only the PARSER's return ends one. -/
theorem invocationsStartAndEnd : Obligations.InvocationsStartAndEnd := by
  intro s t hstep
  rcases step_inv hstep with ⟨hnext, hparser⟩ | ⟨b, -, rfl⟩ | ⟨hhead, hhalted, rfl⟩ | ⟨value, -, hhalted, rfl⟩ |
    ⟨-, hhalted, rfl⟩
  · refine ⟨fun hhalted hrun => ?starts, fun hrun hhalted => ⟨parserTurn_of_running hrun hnext, ?ends⟩⟩
    case starts =>
      rw [parserStep_halted (s := takeTurn s) hhalted] at hparser
      obtain rfl := Host.Outcome.next.inj hparser
      cases hhalted.symm.trans hrun
    case ends =>
      rcases parserStep_running_inv (s := takeTurn s) hrun hparser with ⟨o, b, -, rfl⟩ | ⟨hwaits, -⟩
      · rw [latch_run, effect_run] at hhalted
        cases hhalted.symm.trans hrun
      · exact hwaits
  · exact ⟨fun hhalted hrun => absurd (hhalted.symm.trans hrun) nofun,
      fun hrun hhalted => absurd (hhalted.symm.trans hrun) nofun⟩
  · exact ⟨fun _ _ => hhead, nofun⟩
  · exact ⟨fun _ hrun => absurd (hhalted.symm.trans hrun) nofun, fun hrun _ => absurd (hhalted.symm.trans hrun) nofun⟩
  · exact ⟨nofun, fun hrun _ => absurd (hhalted.symm.trans hrun) nofun⟩

/-- Settles O54: each pair of turns starts an invocation that returns at once, with a new latch. -/
theorem stallChangesNothing : Obligations.StallChangesNothing := by
  intro n
  induction n with
  | zero => exact fun s _ _ => ⟨_, rfl, rfl⟩
  | succ n ih =>
    intro s hhalted hwaits
    set pairs := (List.replicate n [Move.tick, Move.parser]).flatten with hpairs
    have htick : step { s with sched := .tick :: .parser :: pairs } =
        .next { s with run := .running, sched := .parser :: pairs } := step_tick rfl hhalted
    obtain ⟨b, hb⟩ := parserStep_awaits (s := { s with run := .running, sched := pairs }) rfl hwaits
    have hreturn : step { s with run := .running, sched := .parser :: pairs } = .next { s with len := b, sched := pairs } :=
      hb.trans (by rw [hhalted]; rfl)
    obtain ⟨t, hruns, hagree⟩ := ih { s with len := b } hhalted hwaits
    refine ⟨t, ?_, hagree⟩
    rw [List.replicate_succ, List.flatten_cons, ← hpairs, Nat.mul_succ]
    exact (runFor_succ_next _ htick).trans ((runFor_succ_next _ hreturn).trans hruns)

/-! ### Uninterrupted invocations -/

/-- Every outcome shortens the stream, so within one step per byte and one more the invocation returns. -/
theorem invocation_returns {s : State} (hrun : s.run = .running) (hsched : s.sched = []) :
    ∃ n t, n ≤ s.rx.length + 1 ∧ runFor n s = .next t ∧ t.run = .halted ∧ awaitsBytes t.rx = true := by
  induction hlen : s.rx.length using Nat.strong_induction_on generalizing s with
  | _ k ih =>
    have hstep := step_nil hsched
    rcases ho : firstOutcome s.rx with _ | o
    · have hwaits := (firstOutcome_eq_none_iff s.rx).1 ho
      obtain ⟨b, hb⟩ := parserStep_awaits hrun hwaits
      exact ⟨1, _, by omega, runFor_succ_next 0 (hstep.trans hb), rfl, hwaits⟩
    · obtain ⟨b, hb⟩ := parserStep_outcome hrun ho
      obtain ⟨hpos, hsize⟩ := firstOutcome_size ho
      have hshorter : (latch b (o.effect s)).rx.length < k := by
        rw [latch_rx, effect_rx, List.length_drop]
        omega
      obtain ⟨n, t, hn, hruns, hdone⟩ :=
        ih _ hshorter (s := latch b (o.effect s)) ((effect_run o s).trans hrun) ((effect_sched o s).trans hsched) rfl
      exact ⟨n + 1, t, by omega, (runFor_succ_next n (hstep.trans hb)).trans hruns, hdone⟩

/-! ### Effects of outcomes in order -/

/-- Induction along the outcomes of `Parse`. -/
theorem parse_induction {P : List Byte → Prop} (awaits : ∀ rx, firstOutcome rx = none → P rx)
    (outcome : ∀ rx o, firstOutcome rx = some o → P (rx.drop o.size) → P rx) (rx : List Byte) : P rx := by
  induction hlen : rx.length using Nat.strong_induction_on generalizing rx with
  | _ k ih =>
    rcases ho : firstOutcome rx with _ | o
    · exact awaits rx ho
    · obtain ⟨hpos, hsize⟩ := firstOutcome_size ho
      exact outcome rx o ho (ih _ (by rw [List.length_drop]; omega) _ rfl)

theorem effects_cons (o : Parsed) (outs : List Parsed) (s : State) :
    effects (o :: outs) s = effects outs (o.effect s) := rfl

@[simp] theorem effects_sched (outs : List Parsed) (s : State) : (effects outs s).sched = s.sched := by
  induction outs generalizing s with
  | nil => rfl
  | cons o outs ih => rw [effects_cons, ih, effect_sched]

@[simp] theorem effects_pos (outs : List Parsed) (s : State) :
    (effects outs s).pos = s.pos + (outs.map Parsed.size).sum := by
  induction outs generalizing s with
  | nil => rfl
  | cons o outs ih => rw [effects_cons, ih, effect_pos, List.map_cons, List.sum_cons, Nat.add_assoc]

/-- The outcomes of `Parse` take all bytes but its remainder. -/
theorem parse_sizes (rx : List Byte) : ((parse rx).1.map Parsed.size).sum + (parse rx).2.length = rx.length := by
  induction rx using parse_induction with
  | awaits rx ho =>
    rw [parse_none ho]
    exact Nat.zero_add _
  | outcome rx o ho ih =>
    obtain ⟨-, hsize⟩ := firstOutcome_size ho
    rw [List.length_drop] at ih
    simp only [parse_some ho, List.map_cons, List.sum_cons]
    omega

/-- The state with another control side. -/
def withControl (run : Run) (len : Byte) (ms : List Move) (s : State) : State :=
  withStream s.rx s.pos run len ms s

theorem effects_withControl (run : Run) (len : Byte) (ms : List Move) (outs : List Parsed) (s : State) :
    effects outs (withControl run len ms s) = withControl run len ms (effects outs s) := by
  induction outs generalizing s with
  | nil => rfl
  | cons o outs ih =>
    have heffect : o.effect (withControl run len ms s) = withControl run len ms (o.effect s) := by
      rw [effect_eq, effect_eq, withControl, record_withStream]
      rfl
    rw [effects_cons, effects_cons, heffect, ih]

/-- All the operations that the buffered bytes complete have been made. -/
def finish (s : State) : State :=
  effects (parse s.rx).1 s

theorem finish_of_awaits {s : State} (hwaits : awaitsBytes s.rx = true) : finish s = s := by
  rw [finish, parse_none ((firstOutcome_eq_none_iff s.rx).2 hwaits)]
  rfl

theorem finish_effect {s : State} {o : Parsed} (ho : firstOutcome s.rx = some o) : finish (o.effect s) = finish s := by
  rw [finish, finish, effect_rx, parse_some ho, effects_cons]

/-- The stream that is left is the remainder of `Parse` (40_stream_ops.md R84). -/
theorem finish_rx (s : State) : (finish s).rx = (parse s.rx).2 := by
  induction hrx : s.rx using parse_induction generalizing s with
  | awaits rx ho =>
    subst hrx
    rw [finish_of_awaits ((firstOutcome_eq_none_iff s.rx).1 ho), parse_none ho]
  | outcome rx o ho ih =>
    subst hrx
    rw [← finish_effect ho, ih (o.effect s) (effect_rx o s), parse_some ho]

/-! ### The outlook of a state -/

/-- The state with every scheduled byte arrived, no invocation in progress, no turn to come, and nothing latched. -/
def delivered (s : State) : State :=
  withStream (s.rx ++ appended s.sched) s.pos .halted 0#8 [] s

/-- What the state will have become when all its scheduled bytes have been delivered and parsed. -/
def outlook (s : State) : State :=
  finish (delivered s)

/-- An outcome of the bytes buffered is the same outcome once the scheduled bytes have arrived behind them. -/
theorem delivered_effect {s : State} {o : Parsed} (ho : firstOutcome s.rx = some o) (b : Byte) :
    delivered (latch b (o.effect s)) = o.effect (delivered s) := by
  obtain ⟨-, hsize⟩ := firstOutcome_size ho
  rw [effect_eq, effect_eq, delivered, delivered, record_withStream]
  show withStream (s.rx.drop o.size ++ appended s.sched) _ _ _ _ (o.record s) =
    withStream ((s.rx ++ appended s.sched).drop o.size) _ _ _ _ (o.record s)
  rw [List.drop_append_of_le_length hsize]
  rfl

theorem step_keeps_outlook {s t : State} (h : step s = .next t) (hsteady : rewires (s.sched.headD .parser) = false) :
    outlook t = outlook s := by
  have hturn := (step_eq_turnOf s).symm.trans h
  have happended := appended_eq_headD_tail s.sched
  have hreset : s.sched.headD .parser ≠ .reset := by
    intro hm
    rw [hm] at hsteady
    cases hsteady
  generalize s.sched.headD .parser = m at *
  have hquiet {u : State} (hm : appended [m] = []) (hu : delivered u = delivered (takeTurn s)) :
      outlook u = outlook s := by
    rw [outlook, hu, outlook, delivered, delivered, happended, hm]
    rfl
  rcases turnOf_outcomes hturn hreset with ⟨rfl, -, rfl⟩ | ⟨rfl, -, o, b, ho, rfl⟩ | ⟨rfl, -, -, b, rfl⟩ | ⟨b, rfl, rfl⟩ |
    ⟨rfl, -, rfl⟩ | ⟨value, rfl, -, rfl⟩
  · exact hquiet rfl rfl
  · have hstays : outlook (takeTurn s) = outlook s := hquiet rfl rfl
    rw [← hstays, outlook, delivered_effect ho, finish_effect (firstOutcome_append ho _), outlook]
  · exact hquiet rfl rfl
  · rw [outlook, outlook, delivered, delivered, happended]
    show finish (withStream (s.rx ++ [b] ++ appended s.sched.tail) _ _ _ _ s) =
      finish (withStream (s.rx ++ ([b] ++ appended s.sched.tail)) _ _ _ _ s)
    rw [List.append_assoc]
    rfl
  · exact hquiet rfl rfl
  · cases hsteady

theorem rewires_headD {s : State} (hsteady : steadyHost s) : rewires (s.sched.headD .parser) = false := by
  rcases hsched : s.sched with _ | ⟨m, rest⟩
  · rfl
  · exact hsteady m (by simp [hsched])

theorem runFor_keeps_outlook {n : Nat} {s t : State} (hsteady : steadyHost s) (h : runFor n s = .next t) :
    outlook t = outlook s := by
  induction n generalizing s with
  | zero =>
    obtain rfl := Host.Outcome.next.inj h
    rfl
  | succ n ih =>
    obtain ⟨u, hstep, hrest⟩ := runFor_succ_inv h
    rw [ih (step_keeps_steadyHost hsteady hstep) hrest, step_keeps_outlook hstep (rewires_headD hsteady)]

theorem runFor_sched {n : Nat} {s t : State} (h : runFor n s = .next t) : t.sched = s.sched.drop n := by
  induction n generalizing s with
  | zero =>
    obtain rfl := Host.Outcome.next.inj h
    rfl
  | succ n ih =>
    obtain ⟨u, hstep, hrest⟩ := runFor_succ_inv h
    rw [ih hrest, step_sched hstep, List.drop_tail]

/-- A finished state with no turn to come has become its outlook, but for the latch. -/
theorem outlook_of_finished {t : State} (hsched : t.sched = []) (hrun : t.run = .halted)
    (hwaits : awaitsBytes t.rx = true) : outlook t = latch 0#8 t := by
  have hdelivered : delivered t = latch 0#8 t := by
    have happended : t.rx ++ appended t.sched = t.rx := by
      rw [hsched]
      exact List.append_nil t.rx
    show _ = withStream t.rx t.pos t.run 0#8 t.sched t
    rw [delivered, happended, hrun, hsched]
  rw [outlook, hdelivered]
  exact finish_of_awaits hwaits

theorem agreeButLatch_of_latch_eq {b : Byte} {s t : State} (h : latch b s = latch b t) : AgreeButLatch s t :=
  show latch t.len (latch b t) = latch t.len (latch b s) by rw [h]

/-- Settles O52: both runs keep the outlook, which depends on the schedule by its appended bytes alone, and both end in
it. -/
theorem scheduleIndependence : Obligations.ScheduleIndependence := by
  intro s t₁ t₂ one two hone htwo happended hrun₁ hrun₂ hfin₁ hfin₂
  have hends {ms : List Move} {t : State} (hms : ∀ m ∈ ms, rewires m = false)
      (hrun : runFor ms.length { s with sched := ms } = .next t) (hfin : finished t = true) :
      outlook { s with sched := ms } = latch 0#8 t := by
    simp only [finished, Bool.and_eq_true, beq_iff_eq] at hfin
    have hsched : t.sched = [] := (runFor_sched hrun).trans List.drop_length
    rw [← runFor_keeps_outlook (s := { s with sched := ms }) hms hrun, outlook_of_finished hsched hfin.1 hfin.2]
  have hsame : outlook { s with sched := one } = outlook { s with sched := two } := by
    simp only [outlook, delivered, happended]
    rfl
  exact agreeButLatch_of_latch_eq ((hends hone hrun₁ hfin₁).symm.trans (hsame.trans (hends htwo hrun₂ hfin₂)))

/-- Settles O51: the invocation returns, and a finished state is the outlook of the state it began in, the effects of
the outcomes of `Parse`. -/
theorem parserRefinesParse : Obligations.ParserRefinesParse := by
  intro s hrun hsched
  obtain ⟨n, t, -, hruns, hhalted, hwaits⟩ := invocation_returns hrun hsched
  have hsteady : steadyHost s := by simp [steadyHost, hsched]
  have hend : t.sched = [] := by rw [runFor_sched hruns, hsched, List.drop_nil]
  have houtlook : latch 0#8 t = withControl .halted 0#8 [] (finish s) := by
    rw [← outlook_of_finished hend hhalted hwaits, runFor_keeps_outlook hsteady hruns, outlook, delivered, hsched]
    show finish (withStream (s.rx ++ []) _ _ _ _ s) = _
    rw [List.append_nil]
    exact effects_withControl .halted 0#8 [] (parse s.rx).1 s
  refine ⟨n, t, hruns, ?remainder, agreeButLatch_of_latch_eq (b := 0#8) ?effects⟩
  case remainder => exact (congrArg State.rx houtlook).trans (finish_rx s)
  case effects =>
    rw [houtlook, ← hsched, ← effects_sched (parse s.rx).1 s]
    rfl

end Sys2Proof.Machine

/-! The obligation about clean streams (70_reset_and_hazards.md section 4): each item of a clean stream is one outcome of
`Parse`, the frames being valid and the filler silent. -/

namespace Sys2Proof.Machine

/-- The outcome of `Parse` that an item of a clean stream is. -/
def Item.outcome : Item → Parsed
  | .filler => .drop Config.busyByte false
  | .frame b => .valid b

/-- A well-formed frame: its length byte is legal, it is complete, and both checks pass (30_encoding.md R50, R53,
R54). -/
theorem isFrame_cons_iff (L : Byte) (tail : List Byte) :
    isFrame (L :: tail) = true ↔
      legalLength L = true ∧ (L :: tail).length = L.toNat + 2 ∧ (L :: tail)[L.toNat + 1]? = some Config.eof ∧
        (L :: tail)[L.toNat]? = some (sum8 (((L :: tail).take L.toNat).drop 1)) := by
  simp only [isFrame, Bool.and_eq_true, beq_iff_eq, and_assoc]

/-- A well-formed frame at the head of the bytes is a valid outcome. -/
theorem firstOutcome_frame {b : List Byte} (h : isFrame b = true) (rest : List Byte) :
    firstOutcome (b ++ rest) = some (.valid b) := by
  rcases b with _ | ⟨L, tail⟩
  · cases h
  obtain ⟨hlegal, hlen, heof, hsum⟩ := (isFrame_cons_iff L tail).1 h
  refine firstOutcome_append ?_ rest
  rw [firstOutcome_legal hlegal, if_neg hlen.not_lt, List.take_of_length_le hlen.le, parseFrame,
    if_neg (not_not.2 heof), if_neg (not_not.2 hsum.symm)]

theorem firstOutcome_item {it : Item} (h : Item.clean [it] = true) (rest : List Byte) :
    firstOutcome (it.bytes ++ rest) = some it.outcome := by
  cases it with
  | filler => exact firstOutcome_filler rest
  | frame b => exact firstOutcome_frame (b := b) (by simpa [Item.clean] using h) rest

theorem Item.outcome_size (it : Item) : it.outcome.size = it.bytes.length := by
  cases it <;> rfl

theorem Item.clean_cons (it : Item) (items : List Item) :
    Item.clean (it :: items) = (Item.clean [it] && Item.clean items) := by
  simp [Item.clean]

/-- `Parse` of a clean stream: the outcome of each item, and nothing left. -/
theorem parse_clean {items : List Item} (h : Item.clean items = true) :
    parse (items.flatMap Item.bytes) = (items.map Item.outcome, []) := by
  induction items with
  | nil => rfl
  | cons it items ih =>
    rw [Item.clean_cons, Bool.and_eq_true] at h
    rw [List.flatMap_cons, parse_some (firstOutcome_item h.1 _), Item.outcome_size, List.drop_left, ih h.2]
    rfl

theorem validFrames_clean (items : List Item) : validFrames (items.map Item.outcome) = Item.frames items := by
  rw [validFrames, Item.frames, List.filterMap_map]
  congr 1
  funext it
  cases it <;> rfl

/-- A valid frame logs one event, the summary of an apply or the dump of an unknown type. -/
theorem applyFrame_logs_one (b : List Byte) (s : State) :
    ∃ d, (applyFrame b s).diag = s.diag ++ [d] ∧ (d.cause = .summary ∨ d.cause = .unknownType) := by
  obtain ⟨t, d, hnext, -, hdiag, hcause⟩ := dispatch_logs_one (typeByte (loadFrame b s)) (loadFrame b s)
  have happly := endFrame_dispatch_loadFrame b s
  rw [hnext] at happly
  exact ⟨d, by rw [← Host.Outcome.next.inj happly]; exact hdiag, hcause⟩

/-- The effects of a clean stream log one event for each frame. -/
theorem effects_clean_diag (items : List Item) (s : State) :
    ∃ new, (effects (items.map Item.outcome) s).diag = s.diag ++ new ∧ new.length = (Item.frames items).length ∧
      ∀ d ∈ new, d.cause = .summary ∨ d.cause = .unknownType := by
  induction items generalizing s with
  | nil => exact ⟨[], (List.append_nil _).symm, rfl, List.forall_mem_nil _⟩
  | cons it items ih =>
    obtain ⟨new, hdiag, hlength, hcause⟩ := ih (it.outcome.effect s)
    cases it with
    | filler => exact ⟨new, hdiag, hlength, hcause⟩
    | frame b =>
      obtain ⟨d, hone, hd⟩ := applyFrame_logs_one b (consume b.length s)
      refine ⟨d :: new, ?_, congrArg Nat.succ hlength, List.forall_mem_cons.2 ⟨hd, hcause⟩⟩
      rw [List.map_cons, effects_cons, hdiag]
      show (applyFrame b (consume b.length s)).diag ++ new = _
      rw [hone, List.append_assoc]
      rfl

theorem AgreeButLatch.pos {s t : State} (h : AgreeButLatch s t) : t.pos = s.pos := by
  rw [show t = { s with len := t.len } from h]

theorem AgreeButLatch.run {s t : State} (h : AgreeButLatch s t) : t.run = s.run := by
  rw [show t = { s with len := t.len } from h]

theorem AgreeButLatch.diag {s t : State} (h : AgreeButLatch s t) : t.diag = s.diag := by
  rw [show t = { s with len := t.len } from h]

/-- Settles O53: `Parse` of a clean stream is known, and the invocation refines it. -/
theorem cleanStreamsExtractedExactly : Obligations.CleanStreamsExtractedExactly := by
  intro s items hclean hrun hsched hrx
  have hparse := parse_clean hclean
  rw [← hrx] at hparse
  obtain ⟨n, t, hruns, hrest, hagree⟩ := parserRefinesParse s hrun hsched
  obtain ⟨new, hdiag, hlength, hcause⟩ := effects_clean_diag items s
  have hsizes := parse_sizes s.rx
  rw [hparse, List.length_nil, Nat.add_zero] at hsizes
  refine ⟨by rw [hparse, validFrames_clean], n, t, new, hruns, hagree.run, by rw [hrest, hparse], ?pos,
    hagree, ?diag, hlength, hcause⟩
  case pos =>
    rw [hagree.pos]
    show (effects (parse s.rx).1 s).pos = _
    rw [effects_pos, hparse, hsizes]
  case diag =>
    rw [hagree.diag]
    show (effects (parse s.rx).1 s).diag = _
    rw [hparse, hdiag]

end Sys2Proof.Machine

/-! The obligations about endless schedules (70_reset_and_hazards.md section 3). While an invocation is in progress a turn
is an outcome, the return or an append; and the position up to which the buffered bytes can be examined never falls. -/

namespace Sys2Proof.Machine

/-- A turn while an invocation is in progress. -/
theorem turnOf_running_outcomes {m : Move} {s t : State} (hrun : s.run = .running) (h : turnOf m s = .next t) :
    (m = .parser ∧ ∃ o b, firstOutcome s.rx = some o ∧ t = latch b (o.effect s)) ∨
    (m = .parser ∧ awaitsBytes s.rx = true ∧ ∃ b, t = halt (latch b s)) ∨
    ∃ b, m = .append b ∧ t = { s with rx := s.rx ++ [b] } := by
  rcases turnOf_running h hrun with rfl | ⟨b, rfl⟩
  · rcases parserStep_running_inv hrun h with hout | hret
    · exact .inl ⟨rfl, hout⟩
    · exact .inr (.inl ⟨rfl, hret⟩)
  · exact .inr (.inr ⟨b, rfl, (Host.Outcome.next.inj h).symm⟩)

/-! ### Invocations end if the appends end -/

/-- At some turn the invocation has returned with no complete operation buffered. -/
def Returns (env : Schedule) (s : State) : Prop :=
  ∃ n t, runUnder env n s = .next t ∧ t.run = .halted ∧ awaitsBytes t.rx = true

theorem running_or_returns {env : Schedule} {s : State} (hrun : s.run = .running) (hadm : Schedule.admissible env s)
    (n : Nat) : (∃ t, runUnder env n s = .next t ∧ t.run = .running) ∨ Returns env s := by
  induction n with
  | zero => exact .inl ⟨s, rfl, hrun⟩
  | succ n ih =>
    rcases ih with ⟨t, ht, htrun⟩ | hreturns
    · obtain ⟨u, hu⟩ := hadm (n + 1)
      have hturn := (runUnder_succ_next ht).symm.trans hu
      rcases turnOf_running_outcomes htrun hturn with ⟨-, o, b, -, rfl⟩ | ⟨-, hwaits, b, rfl⟩ | ⟨b, -, rfl⟩
      · exact .inl ⟨_, hu, (effect_run o t).trans htrun⟩
      · exact .inr ⟨n + 1, _, hu, rfl, hwaits⟩
      · exact .inl ⟨_, hu, htrun⟩
    · exact .inr hreturns

/-- Once no more bytes arrive every turn of an invocation shortens the stream or ends it. -/
theorem returns_of_no_append {env : Schedule} {s t : State} {n : Nat} (hadm : Schedule.admissible env s)
    (happends : ∀ k b, n ≤ k → env k ≠ .append b) (ht : runUnder env n s = .next t) (hrun : t.run = .running) :
    Returns env s := by
  induction hlen : t.rx.length using Nat.strong_induction_on generalizing n t with
  | _ k ih =>
    obtain ⟨u, hu⟩ := hadm (n + 1)
    have hturn := (runUnder_succ_next ht).symm.trans hu
    rcases turnOf_running_outcomes hrun hturn with ⟨-, o, b, ho, rfl⟩ | ⟨-, hwaits, b, rfl⟩ | ⟨b, hm, -⟩
    · obtain ⟨hpos, hsize⟩ := firstOutcome_size ho
      have hshorter : (latch b (o.effect t)).rx.length < k := by
        rw [latch_rx, effect_rx, List.length_drop]
        omega
      exact ih _ hshorter (fun k b hk => happends k b (Nat.le_of_succ_le hk)) hu ((effect_run o t).trans hrun) rfl
    · exact ⟨n + 1, _, hu, rfl, hwaits⟩
    · exact absurd hm (happends n b le_rfl)

/-- Settles O50: uninterrupted, by the length of the stream; under an endless schedule, by that length once the appends
have ended. -/
theorem invocationTerminates : Obligations.InvocationTerminates := by
  refine ⟨fun s => invocation_returns, fun env s hrun hadm ⟨last, happends⟩ => ?_⟩
  rcases running_or_returns hrun hadm last with ⟨t, ht, htrun⟩ | hreturns
  · exact returns_of_no_append hadm (fun k b hk => happends k b hk) ht htrun
  · exact hreturns

/-! ### Endless appends -/

theorem feeding_even (byte : Nat → Byte) (k : Nat) : feeding byte (2 * k) = .append (byte k) := by
  simp [feeding]

theorem feeding_odd (byte : Nat → Byte) (k : Nat) : feeding byte (2 * k + 1) = .parser := by
  simp [feeding]

/-- Settles O58: a turn of the PARSER on a complete operation is an outcome, which does not return; and a byte that is no
legal length is one. -/
theorem endlessAppendsNeverReturn : Obligations.EndlessAppendsNeverReturn := by
  refine ⟨fun env s hrun hhost hops n => ?complete, fun byte s hrun hrx hillegal k => ?fed⟩
  case complete =>
    induction n with
    | zero => exact ⟨s, rfl, hrun⟩
    | succ n ih =>
      obtain ⟨t, ht, htrun⟩ := ih
      obtain ⟨u, hturn⟩ := turnOf_next (hhost n) t
      have hu := (runUnder_succ_next ht).trans hturn
      rcases turnOf_running_outcomes htrun hturn with ⟨-, o, b, -, rfl⟩ | ⟨hm, hwaits, -⟩ | ⟨b, -, rfl⟩
      · exact ⟨_, hu, (effect_run o t).trans htrun⟩
      · cases hwaits.symm.trans (hops n t ht hm)
      · exact ⟨_, hu, htrun⟩
  case fed =>
    induction k with
    | zero => exact ⟨s, rfl, hrun, hrx, rfl⟩
    | succ k ih =>
      obtain ⟨t, ht, htrun, htrx, htpos⟩ := ih
      have happend : runUnder (feeding byte) (2 * k + 1) s = .next { t with rx := [byte k] } := by
        rw [runUnder_succ_next ht, feeding_even]
        show Host.Outcome.next { t with rx := t.rx ++ [byte k] } = _
        rw [htrx, List.nil_append]
      obtain ⟨noisy, ho⟩ := firstOutcome_illegal (hillegal k) []
      obtain ⟨b, hdrop⟩ := parserStep_outcome (s := { t with rx := [byte k] }) htrun ho
      refine ⟨_, ((runUnder_succ_next happend).trans ?_).trans hdrop, ?_, ?_, ?_⟩
      · rw [feeding_odd]
        rfl
      · exact (effect_run _ _).trans htrun
      · exact effect_rx _ _
      · rw [latch_pos, effect_pos]
        show t.pos + 1 = _
        omega

/-! ### Every byte is examined -/

/-- The position of the cursor behind all the operations that the buffered bytes complete. -/
def due (s : State) : Nat :=
  s.pos + ((parse s.rx).1.map Parsed.size).sum

theorem due_of_awaits {s : State} (h : awaitsBytes s.rx = true) : due s = s.pos := by
  rw [due, parse_none ((firstOutcome_eq_none_iff s.rx).2 h)]
  rfl

theorem due_latch_effect {s : State} {o : Parsed} (ho : firstOutcome s.rx = some o) (b : Byte) :
    due (latch b (o.effect s)) = due s := by
  simp only [due, latch_pos, effect_pos, latch_rx, effect_rx, parse_some ho, List.map_cons, List.sum_cons]
  omega

/-- Bytes that arrive can only complete more operations. -/
theorem parse_sizes_append (rx more : List Byte) :
    ((parse rx).1.map Parsed.size).sum ≤ ((parse (rx ++ more)).1.map Parsed.size).sum := by
  induction rx using parse_induction with
  | awaits rx ho =>
    rw [parse_none ho]
    exact Nat.zero_le _
  | outcome rx o ho ih =>
    obtain ⟨-, hsize⟩ := firstOutcome_size ho
    simp only [parse_some ho, parse_some (firstOutcome_append ho more), List.drop_append_of_le_length hsize,
      List.map_cons, List.sum_cons]
    exact Nat.add_le_add_left ih o.size

theorem turnOf_due_le {m : Move} {s t : State} (h : turnOf m s = .next t) (hreset : m ≠ .reset) : due s ≤ due t := by
  rcases turnOf_outcomes h hreset with ⟨-, -, rfl⟩ | ⟨-, -, o, b, ho, rfl⟩ | ⟨-, -, -, b, rfl⟩ | ⟨b, -, rfl⟩ |
    ⟨-, -, rfl⟩ | ⟨value, -, -, rfl⟩
  · exact le_rfl
  · exact (due_latch_effect ho b).ge
  · exact le_rfl
  · exact Nat.add_le_add_left (parse_sizes_append s.rx [b]) s.pos
  · exact le_rfl
  · exact le_rfl

theorem turnOf_pos_le {m : Move} {s t : State} (h : turnOf m s = .next t) (hreset : m ≠ .reset) : s.pos ≤ t.pos := by
  obtain ⟨consumed, -, hpos⟩ := turnOf_conserves h hreset
  exact hpos ▸ Nat.le_add_right s.pos consumed.length

section
variable {env : Schedule} {s : State}

/-- Under a schedule without resets neither the cursor nor the position due falls. -/
theorem runUnder_monotone (hreset : ∀ k, env k ≠ .reset) {n m : Nat} (hnm : n ≤ m) {t u : State}
    (ht : runUnder env n s = .next t) (hu : runUnder env m s = .next u) : t.pos ≤ u.pos ∧ due t ≤ due u := by
  induction m, hnm using Nat.le_induction generalizing u with
  | base =>
    obtain rfl := Host.Outcome.next.inj (ht.symm.trans hu)
    exact ⟨le_rfl, le_rfl⟩
  | succ m hnm ih =>
    obtain ⟨v, hv, hturn⟩ := runUnder_succ_inv hu
    obtain ⟨hpos, hdue⟩ := ih hv
    exact ⟨hpos.trans (turnOf_pos_le hturn (hreset m)), hdue.trans (turnOf_due_le hturn (hreset m))⟩

/-- In an invocation with an operation complete, the cursor has moved by the PARSER's next turn. -/
theorem running_advances (hadm : Schedule.admissible env s) (d : Nat) :
    ∀ {n : Nat} {t : State}, env (n + d) = .parser → runUnder env n s = .next t → t.run = .running → t.pos < due t →
      ∃ m u, n ≤ m ∧ runUnder env m s = .next u ∧ t.pos < u.pos := by
  induction d with
  | zero =>
    intro n t hparser ht hrun hdue
    obtain ⟨u, hu⟩ := hadm (n + 1)
    rcases turnOf_running_outcomes hrun ((runUnder_succ_next ht).symm.trans hu) with
      ⟨-, o, b, ho, rfl⟩ | ⟨-, hwaits, -⟩ | ⟨b, happend, -⟩
    · obtain ⟨hsize, -⟩ := firstOutcome_size ho
      exact ⟨n + 1, _, n.le_succ, hu, by rw [latch_pos, effect_pos]; omega⟩
    · exact absurd (due_of_awaits hwaits) hdue.ne'
    · cases hparser.symm.trans happend
  | succ d ih =>
    intro n t hparser ht hrun hdue
    obtain ⟨u, hu⟩ := hadm (n + 1)
    have hturn := (runUnder_succ_next ht).symm.trans hu
    rcases turnOf_running_outcomes hrun hturn with ⟨-, o, b, ho, rfl⟩ | ⟨-, hwaits, -⟩ | ⟨b, happend, rfl⟩
    · obtain ⟨hsize, -⟩ := firstOutcome_size ho
      exact ⟨n + 1, _, n.le_succ, hu, by rw [latch_pos, effect_pos]; omega⟩
    · exact absurd (due_of_awaits hwaits) hdue.ne'
    · have hmore := turnOf_due_le hturn (by rw [happend]; nofun)
      obtain ⟨m, v, hm, hv, hpos⟩ := ih (by rw [Nat.add_right_comm]; exact hparser) hu hrun (hdue.trans_le hmore)
      exact ⟨m, v, n.le_succ.trans hm, hv, hpos⟩

/-- While an operation is complete the cursor moves again: in the invocation in progress, or in the one that the HOST's
next tick starts. -/
theorem pos_advances (hadm : Schedule.admissible env s) (hticks : Schedule.hostTicksAgain env s)
    (hparser : Schedule.parserGoesOn env) (hreset : ∀ k, env k ≠ .reset) {n : Nat} {t : State}
    (ht : runUnder env n s = .next t) (hdue : t.pos < due t) :
    ∃ m u, n ≤ m ∧ runUnder env m s = .next u ∧ t.pos < u.pos := by
  have hrunning {n : Nat} {t : State} (ht : runUnder env n s = .next t) (hrun : t.run = .running)
      (hdue : t.pos < due t) : ∃ m u, n ≤ m ∧ runUnder env m s = .next u ∧ t.pos < u.pos := by
    obtain ⟨p, hp, hturn⟩ := hparser n
    exact running_advances hadm (p - n) (by rwa [Nat.add_sub_cancel' hp]) ht hrun hdue
  rcases hrun : t.run with _ | _
  · obtain ⟨k, hk, htick⟩ := hticks n t ht hrun
    obtain ⟨w, hw⟩ := hadm (k + 1)
    obtain ⟨v, hv, hturn⟩ := runUnder_succ_inv hw
    have hwrun : w.run = .running := by
      rw [htick] at hturn
      rcases turnOf_inv hturn with ⟨hm, -⟩ | ⟨b, hm, -⟩ | ⟨-, -, rfl⟩ | ⟨value, hm, -⟩ | ⟨hm, -⟩
      · cases hm
      · cases hm
      · rfl
      · cases hm
      · cases hm
    have hnk : n ≤ k + 1 := hk.trans k.le_succ
    obtain ⟨hpos, hdue'⟩ := runUnder_monotone hreset hnk ht hw
    rcases Nat.lt_or_ge w.pos (due w) with hleft | hnone
    · obtain ⟨m, u, hm, hu, hmoved⟩ := hrunning hw hwrun hleft
      exact ⟨m, u, hnk.trans hm, hu, hpos.trans_lt hmoved⟩
    · exact ⟨k + 1, w, hnk, hw, hdue.trans_le (hdue'.trans hnone)⟩
  · exact hrunning ht hrun hdue

/-- The cursor reaches every position that has become due. -/
theorem pos_reaches (hadm : Schedule.admissible env s) (hticks : Schedule.hostTicksAgain env s)
    (hparser : Schedule.parserGoesOn env) (hreset : ∀ k, env k ≠ .reset) (target : Nat) {n : Nat} {t : State}
    (ht : runUnder env n s = .next t) (hdue : target ≤ due t) :
    ∃ m u, n ≤ m ∧ runUnder env m s = .next u ∧ target ≤ u.pos := by
  induction hgap : target - t.pos using Nat.strong_induction_on generalizing n t with
  | _ gap ih =>
    rcases Nat.lt_or_ge t.pos target with hshort | hreached
    · obtain ⟨m, u, hm, hu, hmoved⟩ := pos_advances hadm hticks hparser hreset ht (hshort.trans_le hdue)
      obtain ⟨-, hdue'⟩ := runUnder_monotone hreset hm ht hu
      obtain ⟨m', u', hm', hu', hreached⟩ := ih (target - u.pos) (by omega) hu (hdue.trans hdue') rfl
      exact ⟨m', u', hm.trans hm', hu', hreached⟩
    · exact ⟨n, t, le_rfl, ht, hreached⟩

end

/-- Settles O59: what the buffered bytes complete is due, and the cursor reaches every position that is due. -/
theorem ticksAgainExamineEveryByte : Obligations.TicksAgainExamineEveryByte :=
  fun _ _ t _ hadm hticks hparser hreset ht => pos_reaches hadm hticks hparser hreset (due t) ht le_rfl

end Sys2Proof.Machine

/-! The obligations about registers, SINK and DIAG as whole-machine rules (10_state.md, 42_apply_publish.md,
60_exceptions.md). A step but a reset leaves the registers and SINK alone unless it accepts a frame, and then it does
what the message operation of the frame's type byte does. -/

namespace Sys2Proof.Machine

/-! ### Accepted frames -/

/-- From `s` to `t` the complete candidate at the head of the stream was accepted: it passes the checks, and the message
operation of its type byte ran on the buffer that held it (40_stream_ops.md R81). -/
def AcceptsFrame (s t : State) : Prop :=
  s.run = .running ∧ ∃ b rest, s.rx = b :: rest ∧ legalLength b = true ∧ b.toNat + 2 ≤ s.rx.length ∧
    isFrame (s.rx.take (b.toNat + 2)) = true ∧
    ∃ u, dispatch (typeByte (loaded b s)) (loaded b s) = .next u ∧ t = discardFrame u

/-- The PARSER's turn accepts a frame, or it leaves the registers and SINK alone. -/
theorem parserStep_keeps_or_accepts {s t : State} (h : parserStep s = .next t) :
    (SameRegisters s t ∧ t.sink = s.sink) ∨ AcceptsFrame s t := by
  rcases parserStep_inv h with ⟨-, rfl⟩ | ⟨-, -, rfl⟩ | ⟨hrun, b, rest, hrx, hop⟩
  · exact .inl ⟨⟨rfl, rfl, rfl, rfl, rfl⟩, rfl⟩
  · exact .inl ⟨⟨rfl, rfl, rfl, rfl, rfl⟩, rfl⟩
  rcases hop with ⟨-, rfl⟩ | ⟨-, rfl⟩ | ⟨-, -, rfl⟩ | ⟨hlegal, hlen, u, hcheck, rfl⟩
  · exact .inl ⟨⟨rfl, rfl, rfl, rfl, rfl⟩, rfl⟩
  · exact .inl ⟨⟨rfl, rfl, rfl, rfl, rfl⟩, rfl⟩
  · exact .inl ⟨⟨rfl, rfl, rfl, rfl, rfl⟩, rfl⟩
  have hraised (c : Cause) : SameRegisters s (discardFrame (raise c (loaded b s).fb.frame (loaded b s))) ∧
      (discardFrame (raise c (loaded b s).fb.frame (loaded b s))).sink = s.sink :=
    have h := ((advances_loaded b s).after_raise c (loaded b s).fb.frame).after_discardFrame
    ⟨h.registers, h.sink⟩
  rcases checkAndDispatch_cases (loaded b s) with ⟨-, hc⟩ | ⟨-, -, hc⟩ | ⟨heof, hsum, hc⟩
  · obtain rfl := Host.Outcome.next.inj (hc.symm.trans hcheck)
    exact .inl (hraised .badEof)
  · obtain rfl := Host.Outcome.next.inj (hc.symm.trans hcheck)
    exact .inl (hraised .badChecksum)
  · refine .inr ⟨hrun, b, rest, hrx, hlegal, hlen, ?_, u, hc.symm.trans hcheck, rfl⟩
    rw [isFrame_taken hrx hlegal hlen, heof, hsum, Bool.and_self]

/-- A step but a reset keeps the registers and SINK, is the HOST's write of `BIND`, or is the PARSER's and accepts a
frame. -/
theorem step_keeps_or_accepts {s t : State} (h : step s = .next t) (hreset : s.sched.head? ≠ some .reset) :
    (SameRegisters s t ∧ t.sink = s.sink) ∨
    (∃ value, s.sched.head? = some (.writeBind value) ∧ t = takeTurn { s with bind := value }) ∨
    (ParserNext s ∧ AcceptsFrame (takeTurn s) t) := by
  rcases step_inv h with ⟨hnext, hparser⟩ | ⟨b, -, rfl⟩ | ⟨-, -, rfl⟩ | ⟨value, hhead, -, rfl⟩ | ⟨hhead, -⟩
  · rcases parserStep_keeps_or_accepts hparser with ⟨hsame, hsink⟩ | haccepts
    · exact .inl ⟨{ hsame with }, hsink⟩
    · exact .inr (.inr ⟨hnext, haccepts⟩)
  · exact .inl ⟨⟨rfl, rfl, rfl, rfl, rfl⟩, rfl⟩
  · exact .inl ⟨⟨rfl, rfl, rfl, rfl, rfl⟩, rfl⟩
  · exact .inr (.inl ⟨value, hhead, rfl⟩)
  · exact absurd hhead hreset

/-! ### Who writes the registers -/

theorem accumulate_zero (e : Slots 64) : accumulate e (Slots.zero 32) = e :=
  Slots.eq_of_get fun _ => accumulate_get_of_zero (Slots.get_zero _)

/-- From `s` to `t` no register was written but that of the messages of type `T`, and `E` by additions alone. -/
structure WritesOnly (T : Byte) (s t : State) : Prop where
  v : T ≠ Config.tVoltage → t.v = s.v
  i : T ≠ Config.tCurrent → t.i = s.i
  p : T ≠ Config.tPower → t.p = s.p
  e : T ≠ Config.tEnergy → t.e = s.e
  bind : t.bind = s.bind
  total : ∃ d : Slots 32, t.e = accumulate s.e d

theorem dispatch_writesOnly {T : Byte} {s t : State} (h : dispatch T s = .next t) : WritesOnly T s t := by
  have hnone : s.e = accumulate s.e (Slots.zero 32) := (accumulate_zero s.e).symm
  rcases dispatch_cases T s with ⟨rfl, hc⟩ | ⟨rfl, hc⟩ | ⟨rfl, hc⟩ | ⟨rfl, hc⟩ | ⟨-, hc⟩ <;>
    obtain rfl := Host.Outcome.next.inj (hc.symm.trans h)
  · rw [applyVoltage_eq]
    exact ⟨fun hT => absurd rfl hT, fun _ => rfl, fun _ => rfl, fun _ => rfl, rfl, _, hnone⟩
  · rw [applyCurrent_eq]
    exact ⟨fun _ => rfl, fun hT => absurd rfl hT, fun _ => rfl, fun _ => rfl, rfl, _, hnone⟩
  · rw [applyPower_eq]
    exact ⟨fun _ => rfl, fun _ => rfl, fun hT => absurd rfl hT, fun _ => rfl, rfl, _, hnone⟩
  · rw [applyEnergy_eq]
    exact ⟨fun _ => rfl, fun _ => rfl, fun _ => rfl, fun hT => absurd rfl hT, rfl, decodeEnergy s, rfl⟩
  · exact ⟨fun _ => rfl, fun _ => rfl, fun _ => rfl, fun _ => rfl, rfl, _, hnone⟩

/-- The frame that a step accepts is the one of `acceptedType`, and it writes the register of its type. -/
theorem acceptedType_of_accepts {s t : State} (hnext : ParserNext s) (h : AcceptsFrame (takeTurn s) t) :
    ∃ T, acceptedType s = some T ∧ WritesOnly T s t := by
  obtain ⟨hrun, b, rest, hrx, hlegal, hlen, hframe, u, hdispatch, rfl⟩ := h
  have hT := typeByte_taken hrx hlen
  refine ⟨typeByte (loaded b (takeTurn s)), ?_, { dispatch_writesOnly hdispatch with }⟩
  rw [takeTurn_rx] at hrx hlen hframe hT
  have hcandidate : candidate s = some (s.rx.take (b.toNat + 2)) := by
    rw [hrx] at hlen
    simp only [candidate, hrx, hlegal, hlen, decide_true, Bool.and_self, if_true]
  have hturn : parserTurn s = true := parserTurn_of_running hrun hnext
  simp only [acceptedType, hturn, if_true, hcandidate, hframe, hT]

/-- Settles O42: a step that is no reset and does not write `BIND` keeps the registers or accepts a frame, whose message
operation writes its own register only. -/
theorem onlyTheirFramesWriteRegisters : Obligations.OnlyTheirFramesWriteRegisters := by
  intro s t hstep hreset
  rcases step_keeps_or_accepts hstep hreset with ⟨hsame, -⟩ | ⟨value, hhead, rfl⟩ | ⟨hnext, haccepts⟩
  · exact ⟨absurd hsame.v, absurd hsame.i, absurd hsame.p, absurd hsame.e, absurd hsame.bind⟩
  · exact ⟨absurd rfl, absurd rfl, absurd rfl, absurd rfl, fun _ => ⟨value, hhead⟩⟩
  · obtain ⟨T, hT, hwrites⟩ := acceptedType_of_accepts hnext haccepts
    have howns {r : Byte} {P : Prop} (hkeeps : T ≠ r → P) (hchanged : ¬ P) : acceptedType s = some r := by
      rw [hT, not_not.1 (mt hkeeps hchanged)]
    exact ⟨howns hwrites.v, howns hwrites.i, howns hwrites.p, howns hwrites.e, absurd hwrites.bind⟩

/-! ### The totals -/

/-- Every step but a reset adds six deltas to the totals, all 0 where it accepts no EnergyDelta frame. -/
theorem step_accumulates {s t : State} (h : step s = .next t) (hreset : s.sched.head? ≠ some .reset) :
    ∃ d : Slots 32, t.e = accumulate s.e d := by
  rcases step_keeps_or_accepts h hreset with ⟨hsame, -⟩ | ⟨value, -, rfl⟩ | ⟨hnext, haccepts⟩
  · exact ⟨Slots.zero 32, hsame.e.trans (accumulate_zero s.e).symm⟩
  · exact ⟨Slots.zero 32, (accumulate_zero s.e).symm⟩
  · obtain ⟨T, -, hwrites⟩ := acceptedType_of_accepts hnext haccepts
    exact hwrites.total

/-- Settles O43: each step adds less than 2^32, so below the bound no addition wraps. -/
theorem nothingButResetClearsEnergy : Obligations.NothingButResetClearsEnergy := by
  intro n s t k hreset hrun hbound
  induction n generalizing s with
  | zero =>
    obtain rfl := Host.Outcome.next.inj hrun
    exact le_rfl
  | succ n ih =>
    obtain ⟨u, hstep, hrest⟩ := runFor_succ_inv hrun
    obtain ⟨d, hd⟩ := step_accumulates hstep fun hhead => hreset (List.mem_of_mem_head? hhead)
    have hdelta := (d.get k).isLt
    have htotal : (u.e.get k).toNat = (s.e.get k).toNat + (d.get k).toNat := by
      rw [hd, accumulate_get_of_lt (by omega)]
    have hlater := ih u (by rw [step_sched hstep]; exact fun hmem => hreset (List.mem_of_mem_tail hmem)) hrest
      (by omega)
    omega

/-! ### What is published -/

/-- From `s` to `t` the events added to SINK are of bound sinks, in ascending order, each carrying the register of its
sink and its sink's denominator (42_apply_publish.md sections 1 and 3). -/
def PublishesRegisters (s t : State) : Prop :=
  ∃ new, t.sink = s.sink ++ new ∧
    (∀ ev ∈ new, s.bind.getLsbD ev.sink.bit = true ∧ ev.num = sinkRegister t ev.sink ∧ ev.den = ev.sink.den) ∧
    (new.map fun ev => ev.sink.bit).Pairwise (· < ·)

theorem publishesRegisters_of_silent {s t : State} (h : t.sink = s.sink) : PublishesRegisters s t :=
  ⟨[], by rw [h, List.append_nil], List.forall_mem_nil _, .nil⟩

theorem mem_slotEvents {w : Nat} {sink : SubChannel → SinkId} {first den : Nat} {bind : BitVec 16} {regs : Slots w}
    {ev : Publish} (h : ev ∈ slotEvents sink first den bind regs) :
    ∃ c, bind.getLsbD (first + c.val) = true ∧ ev = ⟨sink c, (regs.get c.succ).toNat, den⟩ := by
  obtain ⟨c, -, hc⟩ := List.mem_filterMap.1 h
  split at hc
  · exact ⟨c, ‹_›, (Option.some.inj hc).symm⟩
  · cases hc

/-- The events of a six-slot record come in the order of the sub-channels. -/
theorem slotEvents_ascending {w : Nat} {sink : SubChannel → SinkId} {first den : Nat}
    (hbit : ∀ c, (sink c).bit = first + c.val) (bind : BitVec 16) (regs : Slots w) :
    ((slotEvents sink first den bind regs).map fun ev => ev.sink.bit).Pairwise (· < ·) := by
  have hrising : ([0, 1, 2, 3, 4] : List SubChannel).Pairwise (· < ·) := by decide
  rw [slotEvents, List.map_filterMap]
  refine hrising.filterMap _ fun c c' hlt n hn n' hn' => ?_
  split at hn <;> split at hn' <;> simp only [Option.map_some, Option.map_none, Option.some.injEq, reduceCtorEq]
    at hn hn'
  rw [← hn, ← hn', hbit, hbit]
  exact Nat.add_lt_add_left hlt first

theorem publishesRegisters_slotEvents {w : Nat} {sink : SubChannel → SinkId} {first den : Nat} {regs : Slots w}
    {s t : State} (hbit : ∀ c, (sink c).bit = first + c.val) (hden : ∀ c, (sink c).den = den)
    (hregs : ∀ c, sinkRegister t (sink c) = (regs.get c.succ).toNat)
    (h : t.sink = s.sink ++ slotEvents sink first den s.bind regs) : PublishesRegisters s t := by
  refine ⟨_, h, fun ev hev => ?_, slotEvents_ascending hbit s.bind regs⟩
  obtain ⟨c, hbound, rfl⟩ := mem_slotEvents hev
  exact ⟨(hbit c).symm ▸ hbound, (hregs c).symm, (hden c).symm⟩

theorem dispatch_publishesRegisters {T : Byte} {s t : State} (h : dispatch T s = .next t) : PublishesRegisters s t := by
  rcases dispatch_cases T s with ⟨-, hc⟩ | ⟨-, hc⟩ | ⟨-, hc⟩ | ⟨-, hc⟩ | ⟨-, hc⟩ <;>
    obtain rfl := Host.Outcome.next.inj (hc.symm.trans h)
  · rw [applyVoltage_eq]
    refine ⟨_, rfl, fun ev hev => ?_, ?_⟩
    · split at hev
      · obtain rfl := List.mem_singleton.1 hev
        exact ⟨‹_›, rfl, rfl⟩
      · cases hev
    · split
      · exact List.pairwise_singleton _ _
      · exact .nil
  · rw [applyCurrent_eq]
    exact publishesRegisters_slotEvents (sink := .cur) (fun _ => rfl) (fun _ => rfl) (fun _ => rfl) rfl
  · rw [applyPower_eq]
    exact publishesRegisters_slotEvents (sink := .pow) (fun _ => rfl) (fun _ => rfl) (fun _ => rfl) rfl
  · rw [applyEnergy_eq]
    exact publishesRegisters_slotEvents (sink := .ene) (fun _ => rfl) (fun _ => rfl) (fun _ => rfl) rfl
  · exact publishesRegisters_of_silent rfl

theorem sinkRegister_discardFrame (t : State) (sink : SinkId) :
    sinkRegister (discardFrame t) sink = sinkRegister t sink := by
  cases sink <;> rfl

theorem AcceptsFrame.publishesRegisters {s t : State} (h : AcceptsFrame s t) : PublishesRegisters s t := by
  obtain ⟨-, b, rest, -, -, -, -, u, hdispatch, rfl⟩ := h
  obtain ⟨new, hsink, hevents, hascending⟩ := dispatch_publishesRegisters hdispatch
  exact ⟨new, hsink, fun ev hev => by rw [sinkRegister_discardFrame]; exact hevents ev hev, hascending⟩

theorem step_publishesRegisters {s t : State} (h : step s = .next t) (hreset : s.sched.head? ≠ some .reset) :
    PublishesRegisters s t := by
  rcases step_keeps_or_accepts h hreset with ⟨-, hsink⟩ | ⟨value, -, rfl⟩ | ⟨-, haccepts⟩
  · exact publishesRegisters_of_silent hsink
  · exact publishesRegisters_of_silent rfl
  · obtain ⟨new, hsink, hevents, hascending⟩ := haccepts.publishesRegisters
    exact ⟨new, hsink, hevents, hascending⟩

/-- Settles O49: a step publishes registers, and an event's value is its number over its denominator. -/
theorem publishedValuesAreRegisters : Obligations.PublishedValuesAreRegisters := by
  intro s t hstep hreset
  obtain ⟨new, hsink, hevents, hascending⟩ := step_publishesRegisters hstep hreset
  refine ⟨new, hsink, fun ev hev => ?_, hascending⟩
  obtain ⟨hbound, hnum, hden⟩ := hevents ev hev
  exact ⟨hbound, hnum, by rw [Publish.value, hnum, hden]⟩

/-! ### The invariant -/

/-- A register's number is below the bound of its sink (10_state.md R11 to R15). -/
theorem sinkRegister_lt_bound (t : State) (sink : SinkId) : sinkRegister t sink < sink.bound := by
  cases sink with
  | volt => exact t.v.isLt
  | cur c => exact (t.i.get c.succ).isLt
  | pow c => exact (t.p.get c.succ).isLt
  | ene c => exact (t.e.get c.succ).isLt

theorem PublishesRegisters.legal {s t : State} (h : PublishesRegisters s t)
    (hs : ∀ ev ∈ s.sink, legalPublish ev = true) : ∀ ev ∈ t.sink, legalPublish ev = true := by
  obtain ⟨new, hsink, hevents, -⟩ := h
  intro ev hev
  rw [hsink, List.mem_append] at hev
  rcases hev with hold | hnew
  · exact hs ev hold
  · obtain ⟨-, hnum, hden⟩ := hevents ev hnew
    simp [legalPublish, hden, hnum, sinkRegister_lt_bound]

/-- From `s` to `t` only events that the rules emit were logged. -/
def LogsLegally (s t : State) : Prop :=
  ∃ new, t.diag = s.diag ++ new ∧ ∀ d ∈ new, legalDiag d = true

theorem logsLegally_of_silent {s t : State} (h : t.diag = s.diag) : LogsLegally s t :=
  ⟨[], by rw [h, List.append_nil], List.forall_mem_nil _⟩

theorem LogsLegally.legal {s t : State} (h : LogsLegally s t) (hs : ∀ d ∈ s.diag, legalDiag d = true) :
    ∀ d ∈ t.diag, legalDiag d = true := by
  obtain ⟨new, hdiag, hnew⟩ := h
  rw [hdiag]
  exact List.forall_mem_append.2 ⟨hs, hnew⟩

/-- The checks and the dispatch of a complete candidate log what its outcome asks for, the dumps being of that candidate
(60_exceptions.md R123 to R125). -/
theorem checkAndDispatch_logsLegally {s t : State} {b : Byte} {rest : List Byte} (hrx : s.rx = b :: rest)
    (hlegal : legalLength b = true) (hlen : b.toNat + 2 ≤ s.rx.length)
    (h : checkAndDispatch (loaded b s) = .next t) : LogsLegally (loaded b s) t := by
  have hwhole := wholeCandidate_taken hrx hlegal hlen
  have heofRight := eofRight_taken hrx hlen
  have hframe := isFrame_taken hrx hlegal hlen
  have hT := typeByte_taken hrx hlen
  have hdump := loaded_frame b s
  rcases checkAndDispatch_results (loaded b s) with
    ⟨heof, hc⟩ | ⟨heof, hsum, hc⟩ | ⟨heof, hsum, ⟨-, hc⟩ | ⟨-, hc⟩ | ⟨-, hc⟩ | ⟨-, hc⟩ | ⟨hunknown, hc⟩⟩ <;>
    obtain rfl := Host.Outcome.next.inj (hc.symm.trans h)
  · exact ⟨_, rfl, by simp [Cause.events, legalDiag, hdump, hwhole, heofRight, heof]⟩
  · exact ⟨_, rfl, by simp [Cause.events, legalDiag, hdump, hwhole, heofRight, heof, hframe, hsum]⟩
  · exact ⟨[_], by rw [applyVoltage_eq]; rfl, List.forall_mem_singleton.2 rfl⟩
  · exact ⟨[_], by rw [applyCurrent_eq]; rfl, List.forall_mem_singleton.2 rfl⟩
  · exact ⟨[_], by rw [applyPower_eq]; rfl, List.forall_mem_singleton.2 rfl⟩
  · exact ⟨[_], by rw [applyEnergy_eq]; rfl, List.forall_mem_singleton.2 rfl⟩
  · exact ⟨_, rfl, by simp [Cause.events, legalDiag, hdump, hframe, heof, hsum, hT, hunknown]⟩

theorem parserStep_logsLegally {s t : State} (h : parserStep s = .next t) : LogsLegally s t := by
  rcases parserStep_inv h with ⟨-, rfl⟩ | ⟨-, -, rfl⟩ | ⟨-, b, rest, hrx, hop⟩
  · exact logsLegally_of_silent rfl
  · exact logsLegally_of_silent rfl
  rcases hop with ⟨hnoise, rfl⟩ | ⟨-, rfl⟩ | ⟨-, -, rfl⟩ | ⟨hlegal, hlen, u, hcheck, rfl⟩
  · refine ⟨_, rfl, List.forall_mem_singleton.2 ?_⟩
    rcases hnoise with rfl | hover
    · rfl
    · simp [legalDiag, hover]
  · exact logsLegally_of_silent rfl
  · exact logsLegally_of_silent rfl
  · obtain ⟨new, hdiag, hnew⟩ := checkAndDispatch_logsLegally hrx hlegal hlen hcheck
    exact ⟨new, hdiag, hnew⟩

/-- The PARSER's turn ends with the buffer as it was or discarded. -/
theorem parserStep_keeps_discarded {s t : State} (h : parserStep s = .next t) (hs : s.fb = []) : t.fb = [] := by
  rcases parserStep_inv h with ⟨-, rfl⟩ | ⟨-, -, rfl⟩ | ⟨-, b, rest, hrx, hop⟩
  · exact hs
  · exact hs
  rcases hop with ⟨-, rfl⟩ | ⟨-, rfl⟩ | ⟨-, -, rfl⟩ | ⟨-, -, u, -, rfl⟩
  · exact hs
  · exact hs
  · exact hs
  · rfl

theorem step_keeps_discarded_and_logsLegally {s t : State} (h : step s = .next t)
    (hreset : s.sched.head? ≠ some .reset) (hs : s.fb = []) : t.fb = [] ∧ LogsLegally s t := by
  rcases step_inv h with ⟨-, hparser⟩ | ⟨b, -, rfl⟩ | ⟨-, -, rfl⟩ | ⟨value, -, -, rfl⟩ | ⟨hhead, -⟩
  · obtain ⟨new, hdiag, hnew⟩ := parserStep_logsLegally hparser
    exact ⟨parserStep_keeps_discarded hparser hs, new, hdiag, hnew⟩
  · exact ⟨hs, logsLegally_of_silent rfl⟩
  · exact ⟨hs, logsLegally_of_silent rfl⟩
  · exact ⟨hs, logsLegally_of_silent rfl⟩
  · exact absurd hhead hreset

/-- Settles O40: the buffer and both traces are empty at reset. -/
theorem resetHasInvariant : Obligations.ResetHasInvariant :=
  ⟨rfl, List.forall_mem_nil _, List.forall_mem_nil _⟩

/-- Settles O39: a reset gives the reset state's buffer and traces, and every other step keeps the buffer discarded,
logs legally and publishes registers. -/
theorem everyStepKeepsInvariant : Obligations.EveryStepKeepsInvariant := by
  intro s t hs hstep
  by_cases hreset : s.sched.head? = some .reset
  · rcases step_inv hstep with ⟨hnext, -⟩ | ⟨b, hhead, -⟩ | ⟨hhead, -⟩ | ⟨value, hhead, -⟩ | ⟨-, -, rfl⟩
    · rcases hnext with hnil | hhead
      · rw [hnil] at hreset
        cases hreset
      · cases hhead.symm.trans hreset
    · cases hhead.symm.trans hreset
    · cases hhead.symm.trans hreset
    · cases hhead.symm.trans hreset
    · exact ⟨rfl, List.forall_mem_nil _, List.forall_mem_nil _⟩
  · obtain ⟨hbuffer, hlogs⟩ := step_keeps_discarded_and_logsLegally hstep hreset hs.buffer
    exact ⟨hbuffer, hlogs.legal hs.diag, (step_publishesRegisters hstep hreset).legal hs.sink⟩

end Sys2Proof.Machine

/-! The obligations about FRAME (40_stream_ops.md section 3) and the frames that it accepts. Of a candidate at the head of
the stream everything is known: the state in which its checks are made, and for a well-formed frame the message operation
that runs on it. -/

namespace Sys2Proof.Machine

/-! ### FRAME in full -/

/-- A declared length beyond the buffer, with its bytes buffered (20_memory.md section 1). -/
theorem exec_frame_overrun {s : State} {L : Byte} (hL : 48 ≤ L.toNat) (hlen : L.toNat + 2 ≤ s.rx.length) :
    exec (.frame L) s = .fault .frameBufferOverrun := by
  have hbuffered : starved (latch L s) = false := decide_eq_false (Nat.not_lt.2 hlen)
  have hover : Config.fbSize < frameSize (latch L s) := by
    show 49 < L.toNat + 2
    omega
  show execFrame L s = _
  simp only [execFrame, hbuffered, hover, if_true, Bool.false_eq_true, if_false]

/-- FRAME, said once: it returns, faults on an ill-formed length, or makes the outcome that `Parse` gives its
candidate. -/
theorem exec_frame_cases (L : Byte) (s : State) :
    (s.rx.length < L.toNat + 2 ∧ exec (.frame L) s = .next (halt (latch L s))) ∨
    (48 ≤ L.toNat ∧ L.toNat + 2 ≤ s.rx.length ∧ exec (.frame L) s = .fault .frameBufferOverrun) ∨
    (L.toNat ≤ 47 ∧ L.toNat + 2 ≤ s.rx.length ∧
      exec (.frame L) s = .next (latch L ((parseFrame L.toNat (s.rx.take (L.toNat + 2))).effect s))) := by
  rcases Nat.lt_or_ge s.rx.length (L.toNat + 2) with hshort | hlen
  · exact .inl ⟨hshort, exec_frame_starved hshort⟩
  rcases Nat.lt_or_ge 47 L.toNat with hover | hmax
  · exact .inr (.inl ⟨hover, hlen, exec_frame_overrun hover hlen⟩)
  · exact .inr (.inr ⟨hmax, hlen, (exec_frame_loaded hmax hlen).trans (endFrame_checkAndDispatch_loaded hlen)⟩)

/-- Settles O20: of FRAME's three cases one faults, and an operation that is fetched or decoded is well-formed. -/
theorem frameFaultsOnlyBeyondBuffer : Obligations.FrameFaultsOnlyBeyondBuffer := by
  intro s L
  refine ⟨?faults, fun hmax => ?next, fun hfetch => ?fetched, fun b hdecode => ?decoded⟩
  case faults =>
    rcases exec_frame_cases L s with ⟨hshort, hexec⟩ | ⟨hover, hlen, hexec⟩ | ⟨hmax, -, hexec⟩
    · exact iff_of_false (by rw [hexec]; nofun) (by omega)
    · exact iff_of_true hexec ⟨hover, hlen⟩
    · exact iff_of_false (by rw [hexec]; nofun) (by omega)
  case next =>
    rcases exec_frame_cases L s with ⟨-, hexec⟩ | ⟨hover, -, -⟩ | ⟨-, -, hexec⟩
    · exact ⟨_, hexec⟩
    · omega
    · exact ⟨_, hexec⟩
  case fetched =>
    obtain ⟨-, hwf, -⟩ := (fetch_eq_some_iff_head s _).1 hfetch
    exact (legalLength_iff L).1 hwf
  case decoded =>
    obtain ⟨-, hwf, hselector⟩ := (decodeLen_eq_iff b _).1 hdecode
    exact ⟨hselector, (legalLength_iff L).1 hwf⟩

/-! ### The candidate in the buffer -/

/-- The state in which the checks of a candidate frame are made: its bytes are gone from the stream and in the buffer,
and its length is latched (40_stream_ops.md R78). -/
def taken (L : Byte) (frame rest : List Byte) (s : State) : State :=
  { s with rx := rest, pos := s.pos + L.toNat + 2, len := L, fb := Memory.ofBytes 0 frame }

theorem loaded_eq_taken {s : State} {L : Byte} {frame rest : List Byte} (hlength : frame.length = L.toNat + 2)
    (hrx : s.rx = frame ++ rest) : loaded L s = taken L frame rest s := by
  have hframe : s.rx.take (L.toNat + 2) = frame := by rw [hrx, ← hlength, List.take_left]
  have hrest : s.rx.drop (L.toNat + 2) = rest := by rw [hrx, ← hlength, List.drop_left]
  rw [loaded, hframe, taken, ← hrest]
  rfl

theorem exec_frame_taken {s : State} {L : Byte} {frame rest : List Byte} (hmax : L.toNat ≤ 47)
    (hlength : frame.length = L.toNat + 2) (hrx : s.rx = frame ++ rest) :
    exec (.frame L) s = endFrame (checkAndDispatch (taken L frame rest s)) := by
  rw [exec_frame_loaded hmax (by rw [hrx, List.length_append]; omega), loaded_eq_taken hlength hrx]

theorem advances_taken {s : State} {L : Byte} {frame rest : List Byte} (hlength : frame.length = L.toNat + 2)
    (hrx : s.rx = frame ++ rest) : Advances (L.toNat + 2) [] s (taken L frame rest s) :=
  loaded_eq_taken hlength hrx ▸ advances_loaded L s

theorem taken_eofOk (L : Byte) (frame rest : List Byte) (s : State) :
    eofOk (taken L frame rest s) = (frame[L.toNat + 1]? == some Config.eof) := by
  simp [eofOk, taken]

theorem taken_checksumOk (L : Byte) (frame rest : List Byte) (s : State) :
    checksumOk (taken L frame rest s) = (frame[L.toNat]? == some (sum8 ((frame.take L.toNat).drop 1))) := by
  simp [checksumOk, checksummed, taken]

/-- Settles O17: the EOF check passes and the checksum check fails on the candidate in the buffer. -/
theorem frameBadChecksumResult : Obligations.FrameBadChecksumResult := by
  intro s L frame rest _ hmax hlength _ heof hsum hrx
  have hgood : eofOk (taken L frame rest s) = true := by
    rw [taken_eofOk, heof]
    rfl
  have hbad : checksumOk (taken L frame rest s) = false := by
    rw [taken_checksumOk]
    exact beq_false_of_ne hsum
  have hcheck : checkAndDispatch (taken L frame rest s) = .next (raise .badChecksum frame (taken L frame rest s)) := by
    rw [checkAndDispatch, if_neg (ne_false_of_eq_true hgood), if_pos hbad, taken, Memory.frame_ofBytes]
  have hexec : exec (.frame L) s = .next (discardFrame (raise .badChecksum frame (taken L frame rest s))) := by
    rw [exec_frame_taken hmax hlength hrx, hcheck, endFrame]
  have h := ((advances_taken hlength hrx).after_raise .badChecksum frame).after_discardFrame
  exact ⟨_, hexec, rfl, rfl, h.diag, h.sink, h.run, h.registers, fun _ => rfl, h.draws, h.sched⟩

/-! ### Accepted frames -/

/-- A well-formed frame begins with its length byte and is a complete candidate that passes both checks. -/
theorem isFrame_spec {L : Byte} {frame : List Byte} (hframe : isFrame frame = true) (hL : frame[0]? = some L) :
    1 ≤ L.toNat ∧ L.toNat ≤ 47 ∧ frame.length = L.toNat + 2 ∧ frame[L.toNat + 1]? = some 0xC0#8 ∧
      frame[L.toNat]? = some (sum8 ((frame.take L.toNat).drop 1)) := by
  obtain ⟨tail, rfl⟩ : ∃ tail, frame = L :: tail :=
    List.head?_eq_some_iff.1 (List.head?_eq_getElem?.trans hL)
  obtain ⟨hlegal, hlength, heof, hsum⟩ := (isFrame_cons_iff L tail).1 hframe
  obtain ⟨hpos, hmax⟩ := legalLength_bounds hlegal
  exact ⟨hpos, hmax, hlength, heof, hsum⟩

/-- FRAME on a well-formed frame dispatches on its type byte (40_stream_ops.md R81). -/
theorem exec_frame_accepted {s : State} {L T : Byte} {frame rest : List Byte} (hframe : isFrame frame = true)
    (hL : frame[0]? = some L) (hT : frame[1]? = some T) (hrx : s.rx = frame ++ rest) :
    exec (.frame L) s = endFrame (dispatch T (taken L frame rest s)) := by
  obtain ⟨-, hmax, hlength, heof, hsum⟩ := isFrame_spec hframe hL
  have hgood : eofOk (taken L frame rest s) = true := by
    rw [taken_eofOk, heof]
    rfl
  have hgood' : checksumOk (taken L frame rest s) = true := by
    rw [taken_checksumOk, hsum, beq_self_eq_true]
  have htype : typeByte (taken L frame rest s) = T :=
    readCell_specified (s := taken L frame rest s) ((Memory.get_ofBytes frame 1).trans hT)
  rw [exec_frame_taken hmax hlength hrx, checkAndDispatch, if_neg (ne_false_of_eq_true hgood),
    if_neg (ne_false_of_eq_true hgood'), htype]

/-- Settles O18: the dispatch is `exec` of what the type byte decodes to, and always has a next state; for `L = 1` the
type byte is the checksum of no bytes. -/
theorem frameAcceptedResult : Obligations.FrameAcceptedResult := by
  intro s L T frame rest hframe hL hT hrx
  obtain ⟨u, -, hdispatch, -⟩ := dispatch_logs_one T (taken L frame rest s)
  refine ⟨u, (dispatch_eq_exec T _).symm.trans hdispatch, ?frame, ?shortest⟩
  case frame =>
    rw [exec_frame_accepted hframe hL hT hrx, hdispatch]
    rfl
  case shortest =>
    rintro rfl
    obtain ⟨-, -, hlength, -, hsum⟩ := isFrame_spec hframe hL
    have hnone : (frame.take (0x01#8).toNat).drop 1 = [] := List.drop_eq_nil_of_le (List.length_take_le _ _)
    rw [hnone] at hsum
    obtain rfl : T = 0x00#8 := Option.some.inj (hT.symm.trans hsum)
    exact ⟨rfl, rfl⟩

/-- FRAME on an encoded frame of `n - 2` field bytes. -/
theorem exec_frame_frameBytes {s : State} {n : Nat} {T : Byte} {fields rest : List Byte} (hn : fields.length + 2 = n)
    (hmax : n ≤ 47) (hrx : s.rx = frameBytes T fields ++ rest) :
    exec (.frame (BitVec.ofNat 8 n)) s = endFrame (dispatch T (taken (BitVec.ofNat 8 n) (frameBytes T fields) rest s)) := by
  subst hn
  exact exec_frame_accepted (isFrame_frameBytes T (by omega)) rfl rfl hrx

/-- The cursor behind an encoded frame, from its length byte. -/
theorem pos_after_frame (pos : Nat) {n : Nat} (hmax : n ≤ 47) :
    pos + (BitVec.ofNat 8 n).toNat + 2 = pos + (n + 2) := by
  rw [BitVec.toNat_ofNat, Nat.mod_eq_of_lt (by omega), Nat.add_assoc]

/-! ### The fields of an encoded frame -/

theorem readCell_taken {L b : Byte} {frame rest : List Byte} {s : State} {offset : Fin Config.fbSize}
    (h : frame[offset.val]? = some b) : readCell (taken L frame rest s) offset = b :=
  readCell_specified ((Memory.get_ofBytes frame offset.val).trans h)

theorem memRead2_taken {L a b : Byte} {frame rest : List Byte} {s : State} {offset : Nat}
    {h : offset + 2 ≤ Config.fbSize} (ha : frame[offset]? = some a) (hb : frame[offset + 1]? = some b) :
    memRead2 (taken L frame rest s) offset h = a ++ b := by
  rw [memRead2, readCell_taken ha, readCell_taken hb]

theorem memRead4_taken {L a b c d : Byte} {frame rest : List Byte} {s : State} {offset : Nat}
    {h : offset + 4 ≤ Config.fbSize} (ha : frame[offset]? = some a) (hb : frame[offset + 1]? = some b)
    (hc : frame[offset + 2]? = some c) (hd : frame[offset + 3]? = some d) :
    memRead4 (taken L frame rest s) offset h = a ++ b ++ c ++ d := by
  rw [memRead4, readCell_taken ha, readCell_taken hb, readCell_taken hc, readCell_taken hd]

section
variable (L T : Byte) (more rest : List Byte) (s : State)

theorem decodeVoltage_frameBytes (raw : BitVec 16) :
    decodeVoltage (taken L (frameBytes T (be16 raw ++ more)) rest s) = raw :=
  (memRead2_taken rfl rfl).trans (be16_append raw)

theorem decodeCurrent_frameBytes (c : Slots 16) :
    decodeCurrent (taken L (frameBytes T (slotBytes16 c ++ more)) rest s) = c := by
  refine Slots.eq_of_get fun k => ?_
  rw [decodeCurrent, Slots.get_ofFn, field16]
  fin_cases k <;> exact (memRead2_taken rfl rfl).trans (be16_append _)

theorem field32_frameBytes (d : Slots 32) (k : Slot) :
    field32 (taken L (frameBytes T (slotBytes32 d ++ more)) rest s) k = d.get k := by
  rw [field32]
  fin_cases k <;> exact (memRead4_taken rfl rfl rfl rfl).trans (be32_append _)

theorem decodePower_frameBytes (p : Slots 32) :
    decodePower (taken L (frameBytes T (slotBytes32 p ++ more)) rest s) = p :=
  Slots.eq_of_get fun k => by rw [decodePower, Slots.get_ofFn, field32_frameBytes]

theorem decodeEnergy_frameBytes (d : Slots 32) :
    decodeEnergy (taken L (frameBytes T (slotBytes32 d ++ more)) rest s) = d :=
  Slots.eq_of_get fun k => by rw [decodeEnergy, Slots.get_ofFn, field32_frameBytes]

end

theorem slotBytes16_length (c : Slots 16) : (slotBytes16 c).length = 12 := rfl

theorem slotBytes32_length (c : Slots 32) : (slotBytes32 c).length = 24 := rfl

/-! ### The dispatch arms on their own type bytes -/

theorem dispatch_voltage (s : State) :
    dispatch 0x0D#8 s = .next (applyVoltage (decodeVoltage s) (nextDraw s)) := rfl

theorem dispatch_current (s : State) :
    dispatch 0x0E#8 s = .next (applyCurrent (decodeCurrent s) (nextDraw s)) := rfl

theorem dispatch_power (s : State) :
    dispatch 0x0F#8 s = .next (applyPower (decodePower s) (nextDraw s)) := rfl

theorem dispatch_energy (s : State) :
    dispatch 0x10#8 s = .next (applyEnergy (decodeEnergy s) (nextDraw s)) := rfl

/-- Settles O26: the frame is accepted and its field decodes to the raw value. -/
theorem voltageFrameUpdatesVoltage : Obligations.VoltageFrameUpdatesVoltage := by
  intro s raw more rest hmore hrx
  have hmax : more.length + 4 ≤ 47 := by omega
  have hexec := exec_frame_frameBytes (by simp; omega) hmax hrx
  rw [dispatch_voltage, decodeVoltage_frameBytes, applyVoltage_eq] at hexec
  exact ⟨_, hexec, rfl, rfl, pos_after_frame s.pos hmax, rfl, rfl, rfl, rfl, rfl, rfl, rfl⟩

/-- Settles O27: the frame is accepted and its lanes decode to the six values. -/
theorem currentFrameUpdatesCurrents : Obligations.CurrentFrameUpdatesCurrents := by
  intro s c more rest hmore hrx
  have hmax : more.length + 14 ≤ 47 := by omega
  have hexec := exec_frame_frameBytes (by rw [List.length_append, slotBytes16_length]; omega) hmax hrx
  rw [dispatch_current, decodeCurrent_frameBytes, applyCurrent_eq] at hexec
  exact ⟨_, hexec, rfl, rfl, pos_after_frame s.pos hmax, rfl, rfl, rfl, rfl, rfl, rfl, rfl⟩

/-- Settles O28: the frame is accepted and its lanes decode to the six values. -/
theorem powerFrameUpdatesPowers : Obligations.PowerFrameUpdatesPowers := by
  intro s p more rest hmore hrx
  have hmax : more.length + 26 ≤ 47 := by omega
  have hexec := exec_frame_frameBytes (by rw [List.length_append, slotBytes32_length]; omega) hmax hrx
  rw [dispatch_power, decodePower_frameBytes, applyPower_eq] at hexec
  exact ⟨_, hexec, rfl, rfl, pos_after_frame s.pos hmax, rfl, rfl, rfl, rfl, rfl, rfl, rfl⟩

/-- Settles O29: the frame is accepted, its lanes decode to the six deltas, and these are accumulated. -/
theorem energyFrameAddsDeltas : Obligations.EnergyFrameAddsDeltas := by
  intro s d more rest hmore hrx
  have hmax : more.length + 26 ≤ 47 := by omega
  have hexec := exec_frame_frameBytes (by rw [List.length_append, slotBytes32_length]; omega) hmax hrx
  rw [dispatch_energy, decodeEnergy_frameBytes, applyEnergy_eq] at hexec
  exact ⟨_, hexec, accumulate_toNat s.e d, fun _ => accumulate_get_of_lt, rfl, pos_after_frame s.pos hmax, rfl, rfl, rfl,
    rfl, rfl, rfl, rfl⟩

/-- Settles O24: the apply of the six deltas writes `E` alone, by sums modulo 2^64. -/
theorem msgEnergyResult : Obligations.MsgEnergyResult := by
  intro s
  have hexec := exec_msgEnergy s
  rw [applyEnergy_eq] at hexec
  exact ⟨_, cellsOf s, decodeEnergy s, hexec, cellsOf_reads s, decodeEnergy_get_toNat s,
    accumulate_toNat s.e (decodeEnergy s), rfl, rfl, rfl, rfl, rfl, rfl, ⟨rfl, rfl, rfl, rfl, rfl⟩, fun _ => rfl⟩

/-! ### Short frames -/

theorem cellsOf_taken {L b : Byte} {frame rest : List Byte} {s : State} {a : Nat} (h : frame[a]? = some b) :
    cellsOf (taken L frame rest s) a = b :=
  cellsOf_frame rfl h

theorem extractLsb'_high_append (x y : Byte) : (x ++ y : BitVec 16).extractLsb' 8 8 = x := by
  rw [BitVec.extractLsb'_append_eq_of_le (le_refl 8), Nat.sub_self, BitVec.extractLsb'_eq_self]

/-- Settles O30: the frame is accepted whatever its length, and its record is read from cells that agree with its bytes;
the two examples are short frames whose cells are known. -/
theorem shortFramesReadTrailer : Obligations.ShortFramesReadTrailer := by
  refine ⟨fun s L T frame rest hframe hL hT hrecognised hrx => ?record, fun s rest hrx => ?voltage,
    fun s f rest hrx => ?current⟩
  case record =>
    obtain ⟨-, -, -, heof, hsum⟩ := isFrame_spec hframe hL
    have hexec := exec_frame_accepted hframe hL hT hrx
    have hcells : ∀ a b, frame[a]? = some b → cellsOf (taken L frame rest s) a = b := fun _ _ => cellsOf_taken
    have hother {T T' : Byte} {P : Prop} (hne : T ≠ T') : T = T' → P := fun h => absurd h hne
    rcases dispatch_cases T (taken L frame rest s) with ⟨rfl, hc⟩ | ⟨rfl, hc⟩ | ⟨rfl, hc⟩ | ⟨rfl, hc⟩ | ⟨hunknown, -⟩
    · rw [hc, applyVoltage_eq] at hexec
      exact ⟨_, _, hexec, hcells, hcells _ _ hsum, hcells _ _ heof, rfl, rfl, rfl, rfl,
        fun _ => ⟨decodeVoltage_toNat _, rfl, rfl, rfl, rfl, rfl⟩, hother (by decide), hother (by decide),
        hother (by decide)⟩
    · rw [hc, applyCurrent_eq] at hexec
      exact ⟨_, _, hexec, hcells, hcells _ _ hsum, hcells _ _ heof, rfl, rfl, rfl, rfl, hother (by decide),
        fun _ => ⟨decodeCurrent_get_toNat _, rfl, rfl, rfl, rfl, rfl⟩, hother (by decide), hother (by decide)⟩
    · rw [hc, applyPower_eq] at hexec
      exact ⟨_, _, hexec, hcells, hcells _ _ hsum, hcells _ _ heof, rfl, rfl, rfl, rfl, hother (by decide),
        hother (by decide), fun _ => ⟨decodePower_get_toNat _, rfl, rfl, rfl, rfl, rfl⟩, hother (by decide)⟩
    · rw [hc, applyEnergy_eq] at hexec
      exact ⟨_, _, hexec, hcells, hcells _ _ hsum, hcells _ _ heof, rfl, rfl, rfl, rfl, hother (by decide),
        hother (by decide), hother (by decide),
        fun _ => ⟨_, decodeEnergy_get_toNat _, accumulate_toNat s.e _, rfl, rfl, rfl, rfl, rfl⟩⟩
    · cases hunknown.symm.trans hrecognised
  case voltage =>
    have hexec := exec_frame_accepted (L := 0x02#8) (T := 0x0D#8) (by decide) rfl rfl hrx
    rw [dispatch_voltage, applyVoltage_eq] at hexec
    have hfield : decodeVoltage (taken 0x02#8 [0x02#8, 0x0D#8, 0x0D#8, 0xC0#8] rest s) = 0x0D#8 ++ 0xC0#8 :=
      memRead2_taken rfl rfl
    exact ⟨_, hexec, hfield, rfl⟩
  case current =>
    have hexec := exec_frame_frameBytes (n := 3) rfl (by decide) hrx
    rw [dispatch_current, applyCurrent_eq] at hexec
    have hslot0 : (decodeCurrent (taken 0x03#8 (frameBytes 0x0E#8 [f]) rest s)).get 0 = f ++ (0x0E#8 + f) := by
      rw [decodeCurrent, Slots.get_ofFn, field16, memRead2_taken (a := f) (b := sum8 [0x0E#8, f]) rfl rfl, sum8_cons,
        sum8_cons, sum8_nil, BitVec.add_zero]
    have hslot1 : ((decodeCurrent (taken 0x03#8 (frameBytes 0x0E#8 [f]) rest s)).get 1).extractLsb' 8 8 = 0xC0#8 := by
      rw [decodeCurrent, Slots.get_ofFn, field16, memRead2, extractLsb'_high_append, readCell_taken (b := 0xC0#8) rfl]
    exact ⟨_, hexec, hslot0, hslot1, rfl⟩

end Sys2Proof.Machine

/-! The obligations about operations whatever selects them: the buffer's canonical form, the length latch, and the
candidate that a stray length byte makes of a good frame. -/

namespace Sys2Proof.Machine

/-! ### The canonical form and the latch, operation by operation -/

/-- A drop that answers next had a byte to drop. -/
theorem dropOne_inv {head : Byte} {note : List Byte → State → State} {s t : State} (h : dropOne head note s = .next t) :
    ∃ b, t = note [b] (consume 1 (latch head s)) := by
  rcases hrx : s.rx with _ | ⟨b, rest⟩
  · rw [dropOne_nil head note hrx] at h
    cases h
  · rw [dropOne_cons head note hrx] at h
    exact ⟨b, (Host.Outcome.next.inj h).symm⟩

/-- A FRAME that answers next has starved or has made its candidate's outcome. -/
theorem exec_frame_inv {L : Byte} {s t : State} (h : exec (.frame L) s = .next t) :
    t = halt (latch L s) ∨ t = latch L ((parseFrame L.toNat (s.rx.take (L.toNat + 2))).effect s) := by
  rcases exec_frame_cases L s with ⟨-, hexec⟩ | ⟨-, -, hexec⟩ | ⟨-, -, hexec⟩
  · exact .inl (Host.Outcome.next.inj (h.symm.trans hexec))
  · cases h.symm.trans hexec
  · exact .inr (Host.Outcome.next.inj (h.symm.trans hexec))

/-- A candidate's outcome leaves no cell of the buffer. -/
theorem parseFrame_effect_fb (L : Nat) (b : List Byte) (s : State) : ((parseFrame L b).effect s).fb = [] := by
  unfold parseFrame
  split
  · rfl
  · split <;> rfl

/-- A stream-level operation leaves its selecting byte in the latch, and it keeps or discards the buffer. -/
theorem exec_stream_inv {i : Instr} {s t : State} (hformat : i.format = .len) (h : exec i s = .next t) :
    t.len = selector i ∧ (t.fb = s.fb ∨ t.fb = []) := by
  cases i with
  | dropZero | dropOverlen =>
    obtain ⟨b, rfl⟩ := dropOne_inv h
    exact ⟨rfl, .inl rfl⟩
  | dropFiller =>
    obtain ⟨b, rfl⟩ := dropOne_inv ((exec_dropFiller s).symm.trans h)
    exact ⟨rfl, .inl rfl⟩
  | frame L =>
    rcases exec_frame_inv h with rfl | rfl
    · exact ⟨rfl, .inl rfl⟩
    · exact ⟨rfl, .inr (parseFrame_effect_fb _ _ s)⟩
  | msgVoltage | msgCurrent | msgPower | msgEnergy | msgUnknown => cases hformat

/-- A message-level operation leaves the latch and the buffer alone. -/
theorem exec_message_inv {i : Instr} {s t : State} (hformat : i.format = .msg) (h : exec i s = .next t) :
    t.len = s.len ∧ t.fb = s.fb := by
  cases i with
  | dropZero | dropFiller | dropOverlen | frame => cases hformat
  | msgVoltage =>
    rw [exec_msgVoltage, applyVoltage_eq] at h
    exact Host.Outcome.next.inj h ▸ ⟨rfl, rfl⟩
  | msgCurrent =>
    rw [exec_msgCurrent, applyCurrent_eq] at h
    exact Host.Outcome.next.inj h ▸ ⟨rfl, rfl⟩
  | msgPower =>
    rw [exec_msgPower, applyPower_eq] at h
    exact Host.Outcome.next.inj h ▸ ⟨rfl, rfl⟩
  | msgEnergy =>
    rw [exec_msgEnergy, applyEnergy_eq] at h
    exact Host.Outcome.next.inj h ▸ ⟨rfl, rfl⟩
  | msgUnknown T => exact Host.Outcome.next.inj h ▸ ⟨rfl, rfl⟩

/-- Settles O41: an operation keeps the buffer or discards it, and the empty buffer is canonical. -/
theorem everyOperationKeepsBufferCanonical : Obligations.EveryOperationKeepsBufferCanonical := by
  intro i s t hwf h
  have hfb : t.fb = s.fb ∨ t.fb = [] := by
    cases hformat : i.format with
    | len => exact (exec_stream_inv hformat h).2
    | msg => exact .inl (exec_message_inv hformat h).2
  rcases hfb with hkept | hdiscarded
  · rw [hkept, hwf]
  · rw [hdiscarded, Memory.wf_nil]

/-- The PARSER's turn on a buffered byte leaves that byte in the latch. -/
theorem step_len_of_parserTurn {s t : State} {b : Byte} {rest : List Byte} (h : step s = .next t)
    (hturn : parserTurn s = true) (hrx : s.rx = b :: rest) : t.len = b := by
  obtain ⟨hrun, hstep⟩ := step_of_parserTurn hturn
  obtain ⟨hformat, -, hselector⟩ := decodeLen_spec b
  rw [hstep, parserStep_exec (s := takeTurn s) hrun hrx] at h
  exact (exec_stream_inv hformat h).1.trans hselector

/-- Every other turn but a reset leaves the latch alone. -/
theorem step_len_of_other {s t : State} (h : step s = .next t) (hreset : s.sched.head? ≠ some .reset)
    (hother : parserTurn s = false ∨ s.rx = []) : t.len = s.len := by
  rcases step_inv h with ⟨hnext, hparser⟩ | ⟨b, -, rfl⟩ | ⟨-, -, rfl⟩ | ⟨value, -, -, rfl⟩ | ⟨hhead, -⟩
  · rcases parserStep_inv hparser with ⟨-, rfl⟩ | ⟨-, -, rfl⟩ | ⟨hrun, b, rest, hrx, -⟩
    · rfl
    · rfl
    · rcases hother with hnot | hempty
      · cases hnot.symm.trans (parserTurn_of_running hrun hnext)
      · cases hempty.symm.trans hrx
  · rfl
  · rfl
  · rfl
  · exact absurd hhead hreset

/-- Settles O56: operation by operation, and turn by turn. -/
theorem latchHoldsHeadByte : Obligations.LatchHoldsHeadByte :=
  ⟨fun _ _ _ h => ⟨fun hformat => (exec_stream_inv hformat h).1, fun hformat => (exec_message_inv hformat h).1⟩,
    fun _ _ h hreset => ⟨fun _ _ => step_len_of_parserTurn h, step_len_of_other h hreset⟩⟩

/-! ### False length capture -/

/-- A complete candidate that is no frame is rejected by one of the two checks. -/
theorem parseFrame_of_not_frame {L : Byte} {tail : List Byte} (hlegal : legalLength L = true)
    (hlength : (L :: tail).length = L.toNat + 2) (hnot : isFrame (L :: tail) = false) :
    parseFrame L.toNat (L :: tail) = .badEof (L :: tail) ∨
      parseFrame L.toNat (L :: tail) = .badChecksum (L :: tail) := by
  unfold parseFrame
  by_cases heof : (L :: tail)[L.toNat + 1]? = some Config.eof
  · by_cases hsum : (L :: tail)[L.toNat]? = some (sum8 (((L :: tail).take L.toNat).drop 1))
    · have hframe := (isFrame_cons_iff L tail).2 ⟨hlegal, hlength, heof, hsum⟩
      cases hnot.symm.trans hframe
    · exact .inr (by rw [if_neg (not_not.2 heof), if_pos (Ne.symm hsum)])
  · exact .inl (if_pos heof)

/-- The outcome of a candidate that is no frame writes no register and publishes nothing. -/
theorem parseFrame_effect_silent {L : Byte} {tail : List Byte} (hlegal : legalLength L = true)
    (hlength : (L :: tail).length = L.toNat + 2) (hnot : isFrame (L :: tail) = false) (s : State) :
    SameRegisters s ((parseFrame L.toNat (L :: tail)).effect s) ∧
      ((parseFrame L.toNat (L :: tail)).effect s).sink = s.sink := by
  rcases parseFrame_of_not_frame hlegal hlength hnot with h | h <;> rw [h]
  · exact ⟨⟨rfl, rfl, rfl, rfl, rfl⟩, rfl⟩
  · exact ⟨⟨rfl, rfl, rfl, rfl, rfl⟩, rfl⟩

/-- A stray byte one more than the length byte of the frame behind it: the candidate ends where the frame ends, and its
sum is off by that length byte. -/
theorem frame_behind_successor_rejected {s : State} {L len : Byte} {frame rest : List Byte}
    (hframe : isFrame frame = true) (hlen : frame[0]? = some len) (hL : L.toNat = len.toNat + 1) (hmax : L.toNat ≤ 47)
    (hrx : s.rx = L :: (frame ++ rest)) :
    ∃ t, exec (.frame L) s = .next t ∧ t.rx = rest ∧ t.pos = s.pos + L.toNat + 2 ∧ SameRegisters s t ∧
      t.sink = s.sink ∧
      t.diag = s.diag ++ [⟨.badChecksum, .warning, .bytes []⟩, ⟨.badChecksum, .debug, .bytes (L :: frame)⟩] := by
  obtain ⟨hpos, -, hlength, heof, hsum⟩ := isFrame_spec hframe hlen
  have hcovered : frame.take len.toNat = len :: (frame.take len.toNat).drop 1 := by
    obtain ⟨tail, rfl⟩ : ∃ tail, frame = len :: tail :=
      List.head?_eq_some_iff.1 (List.head?_eq_getElem?.trans hlen)
    obtain ⟨n, hn⟩ : ∃ n, len.toNat = n + 1 := ⟨len.toNat - 1, by omega⟩
    rw [hn]
    rfl
  have hoff : (L :: frame)[L.toNat]? ≠ some (sum8 (((L :: frame).take L.toNat).drop 1)) := by
    rw [hL, List.getElem?_cons_succ, List.take_succ_cons, List.drop_one, List.tail_cons, hsum, hcovered, sum8_cons,
      ← hcovered]
    intro heq
    have hzero : len = 0#8 := left_eq_add.1 ((Option.some.inj heq).trans (BitVec.add_comm _ _))
    rw [hzero] at hpos
    exact absurd hpos (by decide)
  obtain ⟨t, hexec, htrx, htpos, hdiag, hsink, -, hregisters, -⟩ :=
    frameBadChecksumResult s L (L :: frame) rest (by omega) hmax (by rw [List.length_cons]; omega) rfl
      (by rw [hL, List.getElem?_cons_succ]; exact heof) hoff hrx
  exact ⟨t, hexec, htrx, htpos, hregisters, hsink, hdiag⟩

/-- Settles O55: the candidate is the stray byte and what stands behind it, so FRAME's cases apply to it. -/
theorem falseLengthSwallowsFrame : Obligations.FalseLengthSwallowsFrame := by
  refine ⟨fun s L frame rest _ hpos hmax hrx => ⟨fun hshort => ?starved, fun hlen => ?captured⟩,
    fun s L len frame rest => frame_behind_successor_rejected, fun s raw rest hrx => ?volt⟩
  case starved =>
    have hshort' : s.rx.length < L.toNat + 2 := by
      rw [hrx, List.length_cons, List.length_append]
      omega
    exact ⟨_, exec_frame_starved hshort', rfl, rfl, rfl, ⟨rfl, rfl, rfl, rfl, rfl⟩, rfl, rfl⟩
  case captured =>
    have hlen' : L.toNat + 2 ≤ s.rx.length := by
      rw [hrx, List.length_cons, List.length_append]
      omega
    have hcandidate : s.rx.take (L.toNat + 2) = L :: (frame ++ rest).take (L.toNat + 1) := by
      rw [hrx, List.take_succ_cons]
    have hlength : (L :: (frame ++ rest).take (L.toNat + 1)).length = L.toNat + 2 := by
      rw [← hcandidate, List.length_take_of_le hlen']
    have hexec := (exec_frame_loaded hmax hlen').trans (endFrame_checkAndDispatch_loaded hlen')
    rw [hcandidate] at hexec
    refine ⟨_, hexec, effect_run _ s, ?rx, ?pos, fun hnot => ?silent⟩
    case rx => rw [latch_rx, effect_rx, parseFrame_size, hlength, hrx, List.drop_succ_cons]
    case pos => rw [latch_pos, effect_pos, parseFrame_size, hlength, Nat.add_assoc]
    case silent =>
      obtain ⟨hregisters, hsink⟩ :=
        parseFrame_effect_silent ((legalLength_iff L).2 ⟨hpos, hmax⟩) hlength hnot s
      exact ⟨{ hregisters with }, hsink⟩
  case volt =>
    have hframe : isFrame (voltBytes raw) = true := isFrame_frameBytes Config.tVoltage (by rw [be16_length]; decide)
    obtain ⟨t, hexec, htrx, htpos, hregisters, -, hdiag⟩ :=
      frame_behind_successor_rejected (len := 0x04#8) hframe rfl rfl (by decide) hrx
    exact ⟨t, hexec, htrx, htpos, hregisters.v, hdiag⟩

end Sys2Proof.Machine

/-! The obligations about single turns (10_state.md, 20_memory.md, 40_stream_ops.md section 1), reset (70_reset_and_hazards.md
section 1) and the codes (60_exceptions.md). -/

namespace Sys2Proof.Machine

/-- Settles O38: a turn that is not the HOST's has a next state, and the HOST's has one while HALTED. -/
theorem onlyMisplacedHostMovesStop : Obligations.OnlyMisplacedHostMovesStop := by
  intro s
  rcases hsched : s.sched with _ | ⟨m, moves⟩
  · obtain ⟨t, ht⟩ := parserStep_next s
    exact .inl ⟨t, (step_nil hsched).trans ht⟩
  rw [step_cons hsched]
  rcases hhost : hostMove m with _ | _
  · exact .inl (turnOf_next hhost (takeTurn s))
  rcases hrun : s.run with _ | _
  · refine .inl ?_
    cases m with
    | parser | append => cases hhost
    | tick => exact ⟨_, by rw [moveStep, hostTick, takeTurn_run, hrun]⟩
    | writeBind value => exact ⟨_, by rw [moveStep, hostWriteBind, takeTurn_run, hrun]⟩
    | reset => exact ⟨_, by rw [moveStep, hostReset, takeTurn_run, hrun]⟩
  · exact .inr ⟨rfl, m, moves, rfl, hhost⟩

/-- Settles O13: there is no head byte to fetch, and each drop is `dropOne`. -/
theorem dropsRefusedWithoutByte : Obligations.DropsRefusedWithoutByte := by
  intro s hrx
  exact ⟨by rw [fetch, rxPeek, hrx]; rfl, dropOne_nil _ _ hrx,
    dropOne_nil Config.busyByte (fun _ t => t) hrx, fun L => dropOne_nil L _ hrx⟩

/-- Settles O31: with a byte buffered the PARSER's turn is `exec` of what it decodes to. -/
theorem stepRunsDecodedOperation : Obligations.StepRunsDecodedOperation := by
  intro s i rest hrun hdecode
  obtain ⟨b, tail, hrx⟩ := List.exists_cons_of_ne_nil (l := s.rx) fun hnil => by
    rw [hnil] at hdecode
    cases hdecode
  rw [hrx, decode_cons] at hdecode
  obtain ⟨rfl, -⟩ := Prod.mk.inj (Except.ok.inj hdecode)
  refine ⟨fun hsched => ?alone, fun moves hsched => ?scheduled⟩
  case alone => exact (step_nil hsched).trans (parserStep_exec hrun hrx)
  case scheduled =>
    rw [step_cons hsched, takeTurn_eq hsched]
    exact parserStep_exec (s := { s with sched := moves }) hrun hrx

theorem step_writeBind {s : State} {value : BitVec 16} {moves : List Move} (hsched : s.sched = .writeBind value :: moves)
    (hrun : s.run = .halted) : step s = .next { s with bind := value, sched := moves } := by
  rw [step_cons hsched, takeTurn_eq hsched]
  simp [moveStep, hostWriteBind, hrun]

theorem step_reset {s : State} {moves : List Move} (hsched : s.sched = .reset :: moves) (hrun : s.run = .halted) :
    step s = .next { State.reset with draws := s.draws, sched := moves } := by
  rw [step_cons hsched, takeTurn_eq hsched]
  simp [moveStep, hostReset, hrun]

theorem reset_e_get (k : Slot) : State.reset.e.get k = 0#64 := Slots.get_zero k

/-- Settles O33: each move's step is known whole. -/
theorem hostMovesWhileHalted : Obligations.HostMovesWhileHalted := by
  intro s moves hrun
  exact ⟨fun hsched => step_tick hsched hrun, fun value hsched => step_writeBind hsched hrun,
    fun hsched => ⟨_, step_reset hsched hrun, reset_e_get, rfl, rfl, rfl, rfl, rfl, rfl, fun _ => rfl, rfl⟩⟩

/-- Settles O34: each move tests `run` first. -/
theorem hostMovesRefusedWhileRunning : Obligations.HostMovesRefusedWhileRunning := by
  intro s moves hrun
  refine ⟨fun hsched => ?tick, fun value hsched => ?writeBind, fun hsched => ?reset⟩
  case tick => rw [step_cons hsched, moveStep, hostTick, takeTurn_run, hrun]
  case writeBind => rw [step_cons hsched, moveStep, hostWriteBind, takeTurn_run, hrun]
  case reset => rw [step_cons hsched, moveStep, hostReset, takeTurn_run, hrun]

/-- Settles O35: the append's turn is known whole. -/
theorem producerAppends : Obligations.ProducerAppends :=
  fun _ _ _ => step_append

/-- Settles O36: the values are those of `State.reset`, where the PARSER's turn waits. -/
theorem resetState : Obligations.ResetState :=
  ⟨reset_e_get, rfl, rfl, rfl, rfl, rfl, rfl, fun _ => rfl, (step_nil rfl).trans (parserStep_halted rfl)⟩

/-- Settles O37: the codes and the bits are read off their definitions. -/
theorem codesAndBindBits : Obligations.CodesAndBindBits :=
  ⟨rfl, rfl, rfl, fun _ => ⟨rfl, rfl, rfl⟩⟩

end Sys2Proof.Machine
